-- ==== Sys2Proof/Word.lean ====
section
/-! DEFINITION. The two word widths of the block: 32-bit IN words and 8-bit OUT bytes (spec/00_scope.md R6, R7). -/

namespace Sys2Proof

/-- One word of the input stream IN, and the width of STATUS (R7, R25, R28). -/
abbrev Word := BitVec 32

/-- One byte of the output stream OUT and of a frame (R27, R40). -/
abbrev Byte := BitVec 8

end Sys2Proof
end

