-- ==== Sys2Proof/Syntax.lean ====
section
/-! DEFINITION. The seven commands (spec/30_encoding.md R67, spec/opcode_table.json), the two frame formats (R65), and a
command together with its argument words (R69). -/

namespace Sys2Proof

/-- What the decoder of R77 answers for a legal command word: one constructor per row of the opcode map (R67). A command
word has no free field, so a constructor has no argument; the argument words are read from IN by the command's
own rule, as its pseudocode does (DESIGN CHOICE, log entry 17). -/
inductive Instr where
  /-- ENC, R111. -/
  | enc
  /-- ENCV, R112. -/
  | encv
  /-- HDR.PCM8, R155. -/
  | hdrPcm8
  /-- HDR.ALAW8, R156. -/
  | hdrAlaw8
  /-- FRAME.PCM8, R157. -/
  | framePcm8
  /-- FRAME.ALAW8, R158. -/
  | frameAlaw8
  /-- FRAMEA, R159. -/
  | framea
deriving DecidableEq, Repr

/-- The two frame formats (R16, R65). -/
inductive Format where
  | pcm8
  | alaw8
deriving DecidableEq, Repr

/-- Why a command word is not a command (R77). -/
inductive DecodeError where
  /-- ILLEGAL_COMMAND, R203. -/
  | illegalCommand
  /-- BAD_FORMAT, R204. -/
  | badFormat
deriving DecidableEq, Repr

/-- What the decoder answers for one 32-bit word (R77: `Command | Error`). -/
inductive DecodeResult where
  | command (i : Instr)
  | error (e : DecodeError)
deriving DecidableEq, Repr

/-- A command with its argument words (R69). The count word of ENCV, FRAME.* and FRAMEA is the number of listed items,
as in the assembler's lines (R79). -/
inductive Command where
  | enc (sample : Word)
  | encv (samples : List Word)
  | hdrPcm8 (rate len : Word)
  | hdrAlaw8 (rate len : Word)
  | framePcm8 (rate : Word) (payload : List Word)
  | frameAlaw8 (rate : Word) (payload : List Word)
  | framea (rate : Word) (samples : List Word)
deriving DecidableEq, Repr

/-- What a stream of words holds at its start (R76): a whole command and what follows it, the beginning of one, or a word
that is no command word. -/
inductive CommandParse where
  | complete (c : Command) (rest : List Word)
  | incomplete
  | error (e : DecodeError)
deriving DecidableEq, Repr

end Sys2Proof
end

