-- ==== Sys2Proof/WellFormed.lean ====
section
/-! DEFINITION. Which commands the encoding of spec/30_encoding.md R69 and R70 can write: the count word is a u32, so a
command lists fewer than 2^32 items. Every sample, rate, length and payload word is encodable (R70, R71), and a
constructor of Instr has no field, so nothing else is checked. -/

namespace Sys2Proof

/-- The item count fits the u32 count word (R70). -/
def countFits (items : List Word) : Bool := decide (items.length < 2 ^ 32)

/-- The command can be written with the words of R69. -/
def Command.wf : Command → Bool
  | .enc _ => true
  | .encv samples => countFits samples
  | .hdrPcm8 _ _ => true
  | .hdrAlaw8 _ _ => true
  | .framePcm8 _ payload => countFits payload
  | .frameAlaw8 _ payload => countFits payload
  | .framea _ samples => countFits samples

end Sys2Proof
end

