-- ==== Sys2Proof/Decode.lean ====
section
/-! DEFINITION. The command-word decoder of spec/30_encoding.md R77, the reader of a command with its argument words (R69,
R76), and after them the encoder of both. -/

namespace Sys2Proof

/-- OP, bits [31:24] of a command word (R66). -/
def opField (w : Word) : BitVec 8 := w.extractLsb' 24 8

/-- RSV, bits [23:16] of a command word (R66, R73). -/
def rsvField (w : Word) : BitVec 8 := w.extractLsb' 16 8

/-- IMM16, bits [15:0] of a command word (R66, R68). -/
def imm16Field (w : Word) : BitVec 16 := w.extractLsb' 0 16

/-- The opcodes of R67; every other value is illegal (R74). -/
def opcodes : List (BitVec 8) := [0x01, 0x02, 0x10, 0x11, 0x12]

/-- IMM16 of ENC, ENCV and FRAMEA must be 0 (R68, D25, D26). -/
def decodeZeroImm (i : Instr) (imm : BitVec 16) : DecodeResult :=
  if imm = 0 then .command i else .error .illegalCommand

/-- IMM16 of HDR and FRAME selects the format: 1 or 6 (R68, D6). -/
def decodeFormatImm (pcm8 alaw8 : Instr) (imm : BitVec 16) : DecodeResult :=
  if imm = 1 then .command pcm8 else if imm = 6 then .command alaw8 else .error .badFormat

/-- The decoder of R77, line by line; total on every 32-bit word. -/
def decode (w : Word) : DecodeResult :=
  if opField w ∉ opcodes then .error .illegalCommand
  else if rsvField w ≠ 0 then .error .illegalCommand
  else if opField w = 0x01 then decodeZeroImm .enc (imm16Field w)
  else if opField w = 0x02 then decodeZeroImm .encv (imm16Field w)
  else if opField w = 0x12 then decodeZeroImm .framea (imm16Field w)
  else if opField w = 0x10 then decodeFormatImm .hdrPcm8 .hdrAlaw8 (imm16Field w)
  else decodeFormatImm .framePcm8 .frameAlaw8 (imm16Field w)

/-- The instruction whose bits are `w`, numbered as spec/opcode_table.json numbers them: its first word is the command
word, and the bits above `nbits` are 0. -/
def decodeTableWord (nbits w : Nat) : Option Instr :=
  match decode (BitVec.ofNat 32 (w % 2 ^ nbits)) with
  | .command i => some i
  | .error _ => none

/-- The `n` words after a count word, if they are all there (R69). -/
def takeItems (n : Nat) (mk : List Word → Command) (ws : List Word) : CommandParse :=
  if n ≤ ws.length then .complete (mk (ws.take n)) (ws.drop n) else .incomplete

/-- The argument words of each command (R69). -/
def decodeArgs : Instr → List Word → CommandParse
  | .enc, s :: rest => .complete (.enc s) rest
  | .encv, n :: rest => takeItems n.toNat .encv rest
  | .hdrPcm8, r :: l :: rest => .complete (.hdrPcm8 r l) rest
  | .hdrAlaw8, r :: l :: rest => .complete (.hdrAlaw8 r l) rest
  | .framePcm8, r :: l :: rest => takeItems l.toNat (.framePcm8 r) rest
  | .frameAlaw8, r :: l :: rest => takeItems l.toNat (.frameAlaw8 r) rest
  | .framea, r :: l :: rest => takeItems l.toNat (.framea r) rest
  | _, _ => .incomplete

/-- The command at the start of a word stream (R76): the command word first, then its argument words. -/
def decodeCommand : List Word → CommandParse
  | [] => .incomplete
  | w :: args =>
    match decode w with
    | .error e => .error e
    | .command i => decodeArgs i args

/-- The command word of each command (R67). -/
def commandWord : Instr → Word
  | .enc => 0x01000000
  | .encv => 0x02000000
  | .hdrPcm8 => 0x10000001
  | .hdrAlaw8 => 0x10000006
  | .framePcm8 => 0x11000001
  | .frameAlaw8 => 0x11000006
  | .framea => 0x12000000

/-- The row of R67 a command belongs to. -/
def Command.instr : Command → Instr
  | .enc _ => .enc
  | .encv _ => .encv
  | .hdrPcm8 _ _ => .hdrPcm8
  | .hdrAlaw8 _ _ => .hdrAlaw8
  | .framePcm8 _ _ => .framePcm8
  | .frameAlaw8 _ _ => .frameAlaw8
  | .framea _ _ => .framea

/-- The count word: the number of listed items as a u32 (R70, R79). -/
def countWord (items : List Word) : Word := BitVec.ofNat 32 items.length

/-- The words after the command word (R69). -/
def Command.args : Command → List Word
  | .enc s => [s]
  | .encv ss => countWord ss :: ss
  | .hdrPcm8 r l => [r, l]
  | .hdrAlaw8 r l => [r, l]
  | .framePcm8 r bs => r :: countWord bs :: bs
  | .frameAlaw8 r bs => r :: countWord bs :: bs
  | .framea r ss => r :: countWord ss :: ss

/-- The words of a well-formed command (R69). -/
def encode (c : Command) : List Word := commandWord c.instr :: c.args

end Sys2Proof
end

