-- ==== Sys2Proof/Machine/State.lean ====
section
/-! DEFINITION. The architectural state of spec/10_state.md R24, the error causes of 60_exceptions.md R202, how a command's
rule ends (R200), and the state after reset (R33). -/

namespace Sys2Proof.Machine

/-- The four parts of the block's state; "no other state exists" (R24). -/
structure State where
  /-- The input word stream; the host appends, the block only reads (R25). -/
  IN : List Word
  /-- The input pointer: the index in IN of the next command word (R26). -/
  ip : Nat
  /-- The output byte stream, append only (R27). -/
  OUT : List Byte
  /-- The status register: ERR in [3:0], [31:4] hardwired to zero (R28). -/
  STATUS : Word
deriving DecidableEq, Repr

/-- The six error causes of R202. An error is no outcome of its own: it is a next state with ERR set (R209). -/
inductive ErrCode where
  | illegalCommand
  | badFormat
  | dataRange
  | configZeroRate
  | configEmptyPayload
  | sizeOverflow
deriving DecidableEq, Repr

/-- The three ways a command's rule ends (R200): it completes, with bytes for `Emit` and the number of words it consumed;
it raises an error; or it holds. -/
inductive Ending where
  | completes (bytes : List Byte) (words : Nat)
  | raises (e : ErrCode)
  | holds
deriving DecidableEq, Repr

/-- What the block finds when it looks for its next command (R200). -/
inductive Fetched where
  /-- STATUS.ERR is not 0: no step (R212). -/
  | halted
  /-- No word at ip: no step until the host appends (R243). -/
  | idle
  /-- The word at ip is no command word (R203, R204). -/
  | bad (e : DecodeError)
  /-- A command word. -/
  | run (i : Instr)
deriving DecidableEq, Repr

/-- Reasons for the machine to stop outside its own error mechanism. There is none: every error of the spec is a next state
with STATUS.ERR set (R209), and "no step" leaves the state as it is (R200). Nothing raises a Fault (safe). -/
inductive Fault where
deriving DecidableEq, Repr

/-- Reasons for the model to give an instruction no meaning. -/
inductive Refusal where
  /-- Raised by an arm of exec that has no meaning yet; no arm is in that case. Safe: the run stops. -/
  | notModelled (mnemonic : String)
deriving DecidableEq, Repr

/-- Every part at the value of R33, also the power-on state (R241). -/
def State.reset : State := { IN := [], ip := 0, OUT := [], STATUS := 0 }

end Sys2Proof.Machine
end

