-- ==== Sys2Proof/Machine/Flags.lean ====
section
/-! DEFINITION. The block has no flags and no condition codes (spec/10_state.md R30): STATUS.ERR is the only status it
records. Here: the error codes (60_exceptions.md R202) and the reads and the one write of STATUS (R28, R209). -/

namespace Sys2Proof.Machine

/-- The code written to STATUS.ERR (R202). -/
def ErrCode.code : ErrCode → BitVec 4
  | .illegalCommand => 1
  | .badFormat => 2
  | .dataRange => 3
  | .configZeroRate => 4
  | .configEmptyPayload => 5
  | .sizeOverflow => 6

/-- The error a decoder failure raises (R200). -/
def decodeErrCode : DecodeError → ErrCode
  | .illegalCommand => .illegalCommand
  | .badFormat => .badFormat

/-- STATUS.ERR, bits [3:0] (R28). -/
def State.err (s : State) : BitVec 4 := s.STATUS.extractLsb' 0 4

/-- What a read of STATUS gives: ERR, with [31:4] hardwired to zero (R28; DEDUCED, log entry 20). -/
def State.readStatus (s : State) : Word := s.err.setWidth 32

/-- `STATUS.ERR <- v`; the bits [31:4] stay hardwired to zero (R28). -/
def State.writeErr (s : State) (v : BitVec 4) : State := { s with STATUS := v.setWidth 32 }

end Sys2Proof.Machine
end

