-- ==== Sys2Proof/Machine/Ops.lean ====
section
/-! DEFINITION. The pseudocode primitives of spec/00_scope.md R13 over State: Avail, In, Emit, the advance of ip, raise, and
the end of a command; and looking for the next command (60_exceptions.md R200). There is no addressable memory
(20_memory.md R40); the frame buffer of one command stands in Frame.lean. -/

namespace Sys2Proof.Machine

/-- `Avail(n)`: `len(IN) >= ip + n` (R13). -/
def State.avail (s : State) (n : Nat) : Bool := decide (s.ip + n ≤ s.IN.length)

/-- `In(k)`: the IN word at index `ip + k` (R13). It is defined only when `Avail(k+1)` holds, and no rule reads it elsewhere;
what the function answers there is never used (DESIGN CHOICE, log entry 5). -/
def State.inWord (s : State) (k : Nat) : Word := s.IN.getD (s.ip + k) 0

/-- `[In(k), ..., In(k+n-1)]`, for `Avail(k+n)` (R13). -/
def State.inWords (s : State) (k n : Nat) : List Word := (s.IN.drop (s.ip + k)).take n

/-- The words not yet consumed (R25). -/
def State.pending (s : State) : List Word := s.IN.drop s.ip

/-- `Emit(bs)`: `OUT <- OUT ++ bs` (R13). -/
def State.emit (s : State) (bs : List Byte) : State := { s with OUT := s.OUT ++ bs }

/-- `ip <- ip + n` (R13). -/
def State.advance (s : State) (n : Nat) : State := { s with ip := s.ip + n }

/-- Error entry, `raise E(ip)`: ERR is written, and OUT, ip and everything else stay (R209). The nonzero ERR is the
halted state (R212); only reset leaves it (R213). -/
def State.raiseError (s : State) (e : ErrCode) : State := s.writeErr e.code

/-- A command's rule takes effect as one atomic step: it completes, raises, or holds with no change (R14, R200). -/
def State.finish (s : State) : Ending → State
  | .completes bytes words => (s.emit bytes).advance words
  | .raises e => s.raiseError e
  | .holds => s

/-- The head of the block step (R200): halted, idle, a bad command word, or a command. -/
def State.fetch (s : State) : Fetched :=
  if s.err ≠ 0 then .halted
  else if s.avail 1 then
    match decode (s.inWord 0) with
    | .error e => .bad e
    | .command i => .run i
  else .idle

/-- The three words of an instruction whose bits are `w`, first word least significant, with the bits above `nbits` 0; three
words are the longest command of the table whose operand words are all 0 (R69). -/
def tableWords (nbits w : Nat) : List Word :=
  [0, 1, 2].map fun k => BitVec.ofNat 32 ((w % 2 ^ nbits) >>> (32 * k))

/-- The words `ws` placed in IN from index ip on, where the block looks for its next command (R26); a stream shorter than ip
is filled up with 0 first. -/
def State.placeWords (s : State) (ws : List Word) : State :=
  { s with IN := s.IN.take s.ip ++ List.replicate (s.ip - s.IN.length) 0 ++ ws ++ s.IN.drop (s.ip + ws.length) }

end Sys2Proof.Machine
end

