-- ==== Sys2Proof/Machine/Operands.lean ====
section
/-! DEFINITION. The operand forms of spec/30_encoding.md R69 to R72: sample words, RATE, LEN and N, payload words, and the
length of a command in words (R76). -/

namespace Sys2Proof.Machine

/-- `sint32(w)`: the two's-complement value of a word (R11, R71). -/
def sint32 (w : Word) : Int := w.toInt

/-- `uint(w)`: a word read as an unsigned value (R11, R70). -/
def uint (w : Word) : Nat := w.toNat

/-- `clamp(v, lo, hi) = max(lo, min(hi, v))` (R11). -/
def clamp (v lo hi : Int) : Int := max lo (min hi v)

/-- RATE of HDR, FRAME and FRAMEA: `uint(In(1))` (R69). -/
def State.rate (s : State) : Nat := uint (s.inWord 1)

/-- LEN of HDR, FRAME and FRAMEA: `uint(In(2))` (R69). -/
def State.len (s : State) : Nat := uint (s.inWord 2)

/-- N of ENCV: `uint(In(1))` (R69). -/
def State.count (s : State) : Nat := uint (s.inWord 1)

/-- The payload byte of a payload word, bits [7:0] (R72). -/
def payloadByte (w : Word) : Byte := w.extractLsb' 0 8

/-- A payload word with any of bits [31:8] set (R72). -/
def payloadBad (w : Word) : Bool := w.extractLsb' 8 24 != 0

/-- The lowest index of a bad payload word (R157); the block does not record it, and the host can find it this way (R202). -/
def firstBadPayload (ws : List Word) : Option Nat := ws.findIdx? payloadBad

/-- The total number of words of the command at ip (R69): fixed, or given by its count word (R76). -/
def State.cmdLength (s : State) : Instr → Nat
  | .enc => 2
  | .encv => 2 + s.count
  | .hdrPcm8 => 3
  | .hdrAlaw8 => 3
  | .framePcm8 => 3 + s.len
  | .frameAlaw8 => 3 + s.len
  | .framea => 3 + s.len

end Sys2Proof.Machine
end

