-- ==== Sys2Proof/Config.lean ====
section
/-! DEFINITION. The OPEN parameters of spec/00_scope.md R8, fixed for the block's lifetime (R23). Each is an opaque
constant with no body, so a statement about the machine holds for every value of it. The named numeric constants of
R8 stand in Sys2Proof/Machine/Params.lean. -/

namespace Sys2Proof

/-- The three readings of `round` at an exact tie in q16 (43_quantization.md R175). -/
inductive TieRule where
  /-- HALF_EVEN: to the even neighbour. -/
  | halfEven
  /-- HALF_AWAY: away from zero. -/
  | halfAway
  /-- HALF_UP: `floor (y + 0.5)`. -/
  | halfUp
deriving DecidableEq, Repr, Inhabited

/-- FLOAT_FORMAT (43_quantization.md R176): what a host operation stores when its exact result is the given rational;
`none` where the format holds no finite number for it (the quantizers are undefined on NaN and infinities, I6).
DESIGN CHOICE, log entries 3 and 4. -/
abbrev FloatFormat := Rat → Option Rat

/-- STRICT_CONFIG (92_eei_decisions.md D9, OPEN): whether a zero rate and a zero-length payload are rejected. -/
opaque Config.strictConfig : Bool

/-- Q16_TIES (92_eei_decisions.md D17, OPEN, host side). -/
opaque Config.q16Ties : TieRule

/-- FLOAT_FORMAT (92_eei_decisions.md D17, OPEN, host side). -/
opaque Config.floatFormat : FloatFormat

end Sys2Proof
end

