-- ==== Sys2Proof/Machine/Params.lean ====
section
/-! DEFINITION. The named numeric constants of spec/00_scope.md R8, normative from the source and kept in one place so
that an audit can replace them (92_eei_decisions.md D23; UNVERIFIED, log entry 21). -/

namespace Sys2Proof.Machine

/-- ALAW_THRESHOLDS, indexed 0 to 7 (40_alaw_encoder.md R105). -/
def alawThresholds : List Nat := [0, 254, 509, 1019, 2039, 4079, 8159, 16318]

/-- ALAW_CUTOFF (R104). -/
def alawCutoff : Nat := 32635

/-- Q8_SCALE = 127.5 (43_quantization.md R171). -/
def q8Scale : Rat := 255 / 2

/-- Q16_SCALE = 32767 (R174). -/
def q16Scale : Rat := 32767

/-- The largest value of a u32 header field (R131, R208). -/
def u32Max : Nat := 0xFFFFFFFF

end Sys2Proof.Machine
end

