-- ==== Sys2Proof/Machine/Alaw.lean ====
section
/-! DEFINITION. The A-Law encoder family of spec/40_alaw_encoder.md: the function alaw_encode step by step (R100 to R109), and
the commands ENC (R111) and ENCV (R112). -/

namespace Sys2Proof.Machine

/-- Step 1: `clamp(v, -32768, 32767)` (R101). -/
def alawClamp (v : Int) : Int := clamp v (-32768) 32767

/-- Step 2: the sign, 0x00 for `s >= 0`, else 0x80 (R102). -/
def alawSign (s : Int) : Nat := if s ≥ 0 then 0x00 else 0x80

/-- Step 2: the magnitude, held as a Nat because 32768 occurs (R103). -/
def alawMag (s : Int) : Nat := (if s < 0 then -s else s).toNat

/-- The cascade of R106 over thresholds listed from the largest down: the first one met wins, and its index is the number of
thresholds below it. -/
def segmentCascade (mag : Nat) : List Nat → Nat
  | [] => 0
  | t :: below => if mag ≥ t then below.length else segmentCascade mag below

/-- Step 3: the largest k in 0..7 with `mag >= ALAW_THRESHOLDS[k]` (R106). -/
def alawSegment (mag : Nat) : Nat := segmentCascade mag alawThresholds.reverse

/-- Step 4: the mantissa, masked for `seg >= 1` (R107) and `mag >> 4` for segment 0 (R108). -/
def alawMantissa (seg mag : Nat) : Nat := if seg ≥ 1 then (mag >>> (seg + 3)) &&& 0x0F else mag >>> 4

/-- Steps 3 to 5 for a sign and a magnitude below the cutoff: `sign | (seg << 4) | mant` (R106 to R109). -/
def alawSegmentPath (sign mag : Nat) : Nat :=
  sign ||| (alawSegment mag <<< 4) ||| alawMantissa (alawSegment mag) mag

/-- The code of a sign and a magnitude: the cutoff of R104, else the segment path. -/
def alawCode (sign mag : Nat) : Nat :=
  if mag ≥ alawCutoff then sign ||| 0x7F else alawSegmentPath sign mag

/-- `alaw_encode(v)`, total on every integer (R100, R110). -/
def alawEncode (v : Int) : Byte :=
  BitVec.ofNat 8 (alawCode (alawSign (alawClamp v)) (alawMag (alawClamp v)))

/-- The code of a sample word: `alaw_encode(sint32(w))` (R71, R100). -/
def encodeSample (w : Word) : Byte := alawEncode (sint32 w)

/-- The rule of ENC (R111). -/
def encRule (s : State) : Ending :=
  if s.avail 2 then .completes [encodeSample (s.inWord 1)] 2 else .holds

/-- The rule of ENCV (R112); N = 0 is legal and emits nothing (D21). -/
def encvRule (s : State) : Ending :=
  if s.avail 2 then
    if s.avail (2 + s.count) then .completes ((s.inWords 2 s.count).map encodeSample) (2 + s.count)
    else .holds
  else .holds

/-- ENC (R111). -/
def execEnc (s : State) : Host.Outcome State Fault Refusal := .next (s.finish (encRule s))

/-- ENCV (R112). -/
def execEncv (s : State) : Host.Outcome State Fault Refusal := .next (s.finish (encvRule s))

end Sys2Proof.Machine
end

