-- ==== Sys2Proof/Machine/Frame.lean ====
section
/-! DEFINITION. The little-endian serializer of spec/41_le_serializer.md and the frame buffer's bytewise writes and reads
(R130 to R134). A frame buffer is a value of one command, not state (10_state.md R22). -/

namespace Sys2Proof.Machine

/-- `v[8i+7 : 8i]` of a non-negative integer, as a byte (R10); a number that does not fit a width gives its low bytes (DESIGN
CHOICE, log entry 24). -/
def byteOf (v i : Nat) : Byte := BitVec.ofNat 8 (v >>> (8 * i))

/-- `le16(v)`: the least significant byte first (R130). -/
def le16 (v : Nat) : List Byte := [byteOf v 0, byteOf v 1]

/-- `le32(v)`: the least significant byte first (R131). -/
def le32 (v : Nat) : List Byte := [byteOf v 0, byteOf v 1, byteOf v 2, byteOf v 3]

/-- The four tags of a frame (R132). -/
inductive Tag where
  | riff
  | wave
  | fmt
  | data
deriving DecidableEq, Repr

/-- `tag4(str)`: the four ASCII bytes, first character first (R132; PRESUMED by the spec itself, G2, log entry 23). -/
def tag4 : Tag → List Byte
  | .riff => [0x52, 0x49, 0x46, 0x46]
  | .wave => [0x57, 0x41, 0x56, 0x45]
  | .fmt => [0x66, 0x6D, 0x74, 0x20]
  | .data => [0x64, 0x61, 0x74, 0x61]

/-- The widths `MemWrite` moves: 1, 2 or 4 bytes (R47, R133). -/
inductive Width where
  | w1
  | w2
  | w4
deriving DecidableEq, Repr

/-- The number of bytes of a width. -/
def Width.bytes : Width → Nat
  | .w1 => 1
  | .w2 => 2
  | .w4 => 4

/-- The n-byte little-endian form of v (R13, R130, R131, R133). -/
def leBytes (n : Width) (v : Nat) : List Byte :=
  match n with
  | .w1 => [byteOf v 0]
  | .w2 => le16 v
  | .w4 => le32 v

/-- `F[addr + i] = bs[i]` for every i, byte by byte, at any addr (R133, R45). -/
def writeBytes (F : List Byte) (addr : Nat) : List Byte → List Byte
  | [] => F
  | b :: bs => writeBytes (F.set addr b) (addr + 1) bs

/-- `MemWrite(F, addr, n, v)` (R133). -/
def memWrite (F : List Byte) (addr : Nat) (n : Width) (v : Nat) : List Byte := writeBytes F addr (leBytes n v)

/-- `MemWriteTag(F, addr, str)` (R133). -/
def memWriteTag (F : List Byte) (addr : Nat) (t : Tag) : List Byte := writeBytes F addr (tag4 t)

/-- `MemRead(F, addr, n)`: the sum of `F[addr + i] * 2^(8 i)` for i below n (R134). The block never uses it. -/
def memRead (F : List Byte) (addr : Nat) : Nat → Nat
  | 0 => 0
  | n + 1 => (F.getD addr 0).toNat + 2 ^ 8 * memRead F (addr + 1) n

end Sys2Proof.Machine
end

