-- ==== Sys2Proof/Machine/Wav.lean ====
section
/-! DEFINITION. The WAV frame constructor family of spec/42_wav_frame.md: the format descriptor (R140), wav_header (R144),
wav_frame (R151), the operand checks in their order (60_exceptions.md R211), and the commands HDR.PCM8 (R155),
HDR.ALAW8 (R156), FRAME.PCM8 (R157), FRAME.ALAW8 (R158) and FRAMEA (R159). -/

namespace Sys2Proof.Machine

/-- A format descriptor (R140). -/
structure FormatDesc where
  code : Nat
  fmtSize : Nat
  tail : Nat
  hasExtra : Bool
  /-- H, the header length. -/
  headerLen : Nat
deriving DecidableEq, Repr

/-- The two rows of R140. -/
def descOf : Format → FormatDesc
  | .pcm8 => { code := 1, fmtSize := 16, tail := 36, hasExtra := false, headerLen := 44 }
  | .alaw8 => { code := 6, fmtSize := 18, tail := 38, hasExtra := true, headerLen := 46 }

/-- `channels = 1` (R141). -/
def wavChannels : Nat := 1

/-- `bits_per_sample = 8` (R141). -/
def wavBitsPerSample : Nat := 8

/-- `block_align = 1` (R141). -/
def wavBlockAlign : Nat := 1

/-- The writes of R144 up to offset 36, in the pseudocode's order. -/
def headerCommon (d : FormatDesc) (rate len : Nat) (F : List Byte) : List Byte :=
  let F := memWriteTag F 0 .riff
  let F := memWrite F 4 .w4 (d.tail + len)
  let F := memWriteTag F 8 .wave
  let F := memWriteTag F 12 .fmt
  let F := memWrite F 16 .w4 d.fmtSize
  let F := memWrite F 20 .w2 d.code
  let F := memWrite F 22 .w2 wavChannels
  let F := memWrite F 24 .w4 rate
  let F := memWrite F 28 .w4 (rate * wavBlockAlign)
  let F := memWrite F 32 .w2 wavBlockAlign
  memWrite F 34 .w2 wavBitsPerSample

/-- The extra-format-bytes field, written only when the descriptor has it (R149). -/
def headerExtra (d : FormatDesc) (F : List Byte) : List Byte :=
  if d.hasExtra then memWrite F 36 .w2 0 else F

/-- The offset of the "data" tag: 36, or 38 after the extra field (R144, R150). -/
def dataOffset (d : FormatDesc) : Nat := if d.hasExtra then 38 else 36

/-- The data chunk header (R150). -/
def headerData (d : FormatDesc) (len : Nat) (F : List Byte) : List Byte :=
  memWrite (memWriteTag F (dataOffset d) .data) (dataOffset d + 4) .w4 len

/-- All the writes of R144 over a buffer F. -/
def headerWrites (d : FormatDesc) (rate len : Nat) (F : List Byte) : List Byte :=
  headerData d len (headerExtra d (headerCommon d rate len F))

/-- `wav_header(d, RATE, L)` (R144): the writes over a new byte array of length H; its first contents are
overwritten (DESIGN CHOICE, log entry 6). -/
def wavHeader (f : Format) (rate len : Nat) : List Byte :=
  headerWrites (descOf f) rate len (List.replicate (descOf f).headerLen 0)

/-- `wav_frame(d, RATE, P) = wav_header(d, RATE, len(P)) ++ P` (R151, R135). -/
def wavFrame (f : Format) (rate : Nat) (payload : List Byte) : List Byte :=
  wavHeader f rate payload.length ++ payload

/-- Checks 3 to 5 of R211: CONFIG_ZERO_RATE (R206), SIZE_OVERFLOW (R208), CONFIG_EMPTY_PAYLOAD (R207). -/
def frameCheck (strict : Bool) (f : Format) (rate len : Nat) : Option ErrCode :=
  if rate = 0 && strict then some .configZeroRate
  else if len > u32Max - (descOf f).tail then some .sizeOverflow
  else if len = 0 && strict then some .configEmptyPayload
  else none

/-- The end of a command after its checks: the error they raise, or the rest of the rule (R155 to R159). -/
def checkedEnding (strict : Bool) (f : Format) (rate len : Nat) (rest : Ending) : Ending :=
  match frameCheck strict f rate len with
  | some e => .raises e
  | none => rest

/-- What every frame command does first: hold below Avail(3), then the checks, then the rest of the rule (R155 to R159). -/
def checkedRule (strict : Bool) (f : Format) (s : State) (rest : Ending) : Ending :=
  if s.avail 3 then checkedEnding strict f s.rate s.len rest else .holds

/-- The rule of HDR (R155, R156). -/
def hdrRule (strict : Bool) (f : Format) (s : State) : Ending :=
  checkedRule strict f s (.completes (wavHeader f s.rate s.len) 3)

/-- The end of FRAME once its LEN payload words are there: DATA_RANGE at the lowest bad index, or the frame (R157). The index is
not recorded (R202; DEDUCED, log entry 22). -/
def payloadEnding (f : Format) (rate len : Nat) (ws : List Word) : Ending :=
  match firstBadPayload ws with
  | some _ => .raises .dataRange
  | none => .completes (wavFrame f rate (ws.map payloadByte)) (3 + len)

/-- The rule of FRAME (R157, R158). -/
def frameRule (strict : Bool) (f : Format) (s : State) : Ending :=
  checkedRule strict f s
    (if s.avail (3 + s.len) then payloadEnding f s.rate s.len (s.inWords 3 s.len) else .holds)

/-- The rule of FRAMEA, whose format is always ALAW8 (R159, D25). -/
def frameaRule (strict : Bool) (s : State) : Ending :=
  checkedRule strict .alaw8 s
    (if s.avail (3 + s.len) then
      .completes (wavFrame .alaw8 s.rate ((s.inWords 3 s.len).map encodeSample)) (3 + s.len)
    else .holds)

/-- HDR.PCM8 (R155). -/
def execHdrPcm8 (s : State) : Host.Outcome State Fault Refusal :=
  .next (s.finish (hdrRule Config.strictConfig .pcm8 s))

/-- HDR.ALAW8 (R156). -/
def execHdrAlaw8 (s : State) : Host.Outcome State Fault Refusal :=
  .next (s.finish (hdrRule Config.strictConfig .alaw8 s))

/-- FRAME.PCM8 (R157). -/
def execFramePcm8 (s : State) : Host.Outcome State Fault Refusal :=
  .next (s.finish (frameRule Config.strictConfig .pcm8 s))

/-- FRAME.ALAW8 (R158). -/
def execFrameAlaw8 (s : State) : Host.Outcome State Fault Refusal :=
  .next (s.finish (frameRule Config.strictConfig .alaw8 s))

/-- FRAMEA (R159). -/
def execFramea (s : State) : Host.Outcome State Fault Refusal :=
  .next (s.finish (frameaRule Config.strictConfig s))

end Sys2Proof.Machine
end

