-- ==== Sys2Proof/Machine/Dispatch.lean ====
section
/-! DEFINITION. The case split of spec/60_exceptions.md R200: one arm per command. -/

namespace Sys2Proof.Machine

def exec (i : Instr) (s : State) : Host.Outcome State Fault Refusal :=
  match i with
  | .enc => Sys2Proof.Machine.execEnc s
  | .encv => Sys2Proof.Machine.execEncv s
  | .hdrPcm8 => Sys2Proof.Machine.execHdrPcm8 s
  | .hdrAlaw8 => Sys2Proof.Machine.execHdrAlaw8 s
  | .framePcm8 => Sys2Proof.Machine.execFramePcm8 s
  | .frameAlaw8 => Sys2Proof.Machine.execFrameAlaw8 s
  | .framea => Sys2Proof.Machine.execFramea s

end Sys2Proof.Machine
end

