-- ==== Sys2Proof/Machine/Step.lean ====
section
/-! DEFINITION. The block step of spec/60_exceptions.md R200. -/

namespace Sys2Proof.Machine

/-- One transition of the block agent (R200). Where the spec has no step (halted, idle, or a command that holds) the state
stays as it was (DESIGN CHOICE, log entry 1: that is answered as a next state). -/
def step (s : State) : Host.Outcome State Fault Refusal :=
  match s.fetch with
  | .halted => .next s
  | .idle => .next s
  | .bad e => .next (s.raiseError (decodeErrCode e))
  | .run i => exec i s

/-- `s` with the instruction whose bits are `w` placed at ip, as the host's appends would place it in the reset state (R248).
STATUS is not touched: a halted block fetches nothing until reset (R212). DESIGN CHOICE, log entry 8. -/
def State.withFetchWord (s : State) (nbits w : Nat) : State := s.placeWords (tableWords nbits w)

end Sys2Proof.Machine
end

