-- ==== Sys2Proof/Machine/Quantize.lean ====
section
/-! DEFINITION. The host-side quantizers of spec/43_quantization.md: q8 (R171 to R173), q16 (R174 to R176), and the two data
paths that put them in front of the block (R177). They are functions of the host; no command computes them (R170). A
host sample is a finite number; NaN and infinities are outside every rule (I6). -/

namespace Sys2Proof.Machine

/-- FLOAT_FORMAT read as exact arithmetic: every result is stored as it is. -/
def exactFormat : FloatFormat := some

/-- `trunc(r)`: a real rounded toward zero (R11). -/
def trunc (r : Rat) : Int := if r ≥ 0 then r.floor else -(-r).floor

/-- `(x + 1.0) * 127.5 + 0.5`, each operation stored in the host's format (R171, R172, R176). -/
def q8Scaled (F : FloatFormat) (x : Rat) : Option Rat :=
  (F (x + 1)).bind fun a => (F (a * q8Scale)).bind fun b => F (b + 1 / 2)

/-- The byte value before it is a byte: truncated, then clamped to [0, 255] (R172, R173). -/
def q8Level (y : Rat) : Int := clamp (trunc y) 0 255

/-- `q8(x)` (R171); `none` where the format stores no finite number on the way. -/
def q8 (F : FloatFormat) (x : Rat) : Option Byte := (q8Scaled F x).map fun y => BitVec.ofInt 8 (q8Level y)

/-- Where a tie between `k` and `k + 1` goes (R175). -/
def tieTarget (t : TieRule) (k : Int) : Int :=
  match t with
  | .halfEven => if k % 2 = 0 then k else k + 1
  | .halfAway => if k ≥ 0 then k + 1 else k
  | .halfUp => k + 1

/-- `round_Q16_TIES(y)`: to the nearest integer, ties by the rule (R175). -/
def roundTies (t : TieRule) (y : Rat) : Int :=
  if y - y.floor < 1 / 2 then y.floor
  else if y - y.floor > 1 / 2 then y.floor + 1
  else tieTarget t y.floor

/-- `q16(x)` (R174), with no clamp (R176). -/
def q16 (F : FloatFormat) (t : TieRule) (x : Rat) : Option Int := (F (x * q16Scale)).map (roundTies t)

/-- The q8 of a host whose format is the OPEN parameter. -/
def hostQ8 : Rat → Option Byte := q8 Config.floatFormat

/-- The q16 of a host whose format and tie rule are the OPEN parameters. -/
def hostQ16 : Rat → Option Int := q16 Config.floatFormat Config.q16Ties

/-- Whether an integer is the value of some sample word (R71). -/
def sampleInRange (n : Int) : Bool := decide (-2 ^ 31 ≤ n) && decide (n ≤ 2 ^ 31 - 1)

/-- The sample word of a q16 result: `n mod 2^32`, for the values the host may deliver (R176, R177, I7). -/
def sampleWordOf (n : Int) : Option Word := if sampleInRange n then some (BitVec.ofInt 32 n) else none

/-- `map q X`, if every sample has a result. -/
def quantizeAll {α : Type} (q : Rat → Option α) : List Rat → Option (List α)
  | [] => some []
  | x :: xs => (q x).bind fun y => (quantizeAll q xs).map fun ys => y :: ys

/-- `wav_frame(PCM8, R, map q8 X)` (R177). -/
def pcm8File (F : FloatFormat) (rate : Nat) (xs : List Rat) : Option (List Byte) :=
  (quantizeAll (q8 F) xs).map (wavFrame .pcm8 rate)

/-- `wav_frame(ALAW8, R, map (alaw_encode ∘ q16) X)` (R177). -/
def alaw8File (F : FloatFormat) (t : TieRule) (rate : Nat) (xs : List Rat) : Option (List Byte) :=
  (quantizeAll (q16 F t) xs).map fun ys => wavFrame .alaw8 rate (ys.map alawEncode)

/-- The PCM8 path on the block: FRAME.PCM8 with payload words `q8(x)` (R177). -/
def pcm8Command (F : FloatFormat) (rate : Word) (xs : List Rat) : Option Command :=
  (quantizeAll (q8 F) xs).map fun bs => .framePcm8 rate (bs.map fun b => b.setWidth 32)

/-- The ALAW8 path on the block: FRAMEA with sample words `q16(x) mod 2^32` (R177). -/
def alaw8Command (F : FloatFormat) (t : TieRule) (rate : Word) (xs : List Rat) : Option Command :=
  (quantizeAll (fun x => (q16 F t x).bind sampleWordOf) xs).map (.framea rate)

end Sys2Proof.Machine
end

