-- ==== Sys2Proof/Machine/Assembler.lean ====
section
/-! DEFINITION. The assembly lines of spec/30_encoding.md R79 and the directive `.word` of R80, as parsed lines over integers
and as text. There are no pseudo-instructions (R81). -/

namespace Sys2Proof.Machine

/-- One source line (R79, R80). -/
inductive SourceLine where
  | enc (s : Int)
  | encv (ss : List Int)
  | hdrPcm8 (r l : Int)
  | hdrAlaw8 (r l : Int)
  | framePcm8 (r : Int) (bs : List Int)
  | frameAlaw8 (r : Int) (bs : List Int)
  | framea (r : Int) (ss : List Int)
  | word (v : Int)
deriving DecidableEq, Repr

/-- `v mod 2^32` as a word (R79, R80). -/
def wordOf (v : Int) : Word := BitVec.ofInt 32 v

/-- A u32 operand: a rate or a length (R79). -/
def u32InRange (v : Int) : Bool := decide (0 ≤ v) && decide (v ≤ 0xFFFFFFFF)

/-- A payload byte operand, [0, 255] (R79). -/
def byteInRange (v : Int) : Bool := decide (0 ≤ v) && decide (v ≤ 255)

/-- A list of items: each in its range, and few enough for the count word (R79; DESIGN CHOICE, log
entry 16). -/
def itemsInRange (ok : Int → Bool) (vs : List Int) : Bool := vs.all ok && decide (vs.length < 2 ^ 32)

/-- A line whose operands the assembler accepts (R79); nothing checks `.word` (R80). -/
def SourceLine.accepted : SourceLine → Bool
  | .enc s => sampleInRange s
  | .encv ss => itemsInRange sampleInRange ss
  | .hdrPcm8 r l => u32InRange r && u32InRange l
  | .hdrAlaw8 r l => u32InRange r && u32InRange l
  | .framePcm8 r bs => u32InRange r && itemsInRange byteInRange bs
  | .frameAlaw8 r bs => u32InRange r && itemsInRange byteInRange bs
  | .framea r ss => u32InRange r && itemsInRange sampleInRange ss
  | .word _ => true

/-- The words of an accepted line (the table of R79, and R80). -/
def SourceLine.words : SourceLine → List Word
  | .enc s => [0x01000000, wordOf s]
  | .encv ss => 0x02000000 :: wordOf ss.length :: ss.map wordOf
  | .hdrPcm8 r l => [0x10000001, wordOf r, wordOf l]
  | .hdrAlaw8 r l => [0x10000006, wordOf r, wordOf l]
  | .framePcm8 r bs => 0x11000001 :: wordOf r :: wordOf bs.length :: bs.map wordOf
  | .frameAlaw8 r bs => 0x11000006 :: wordOf r :: wordOf bs.length :: bs.map wordOf
  | .framea r ss => 0x12000000 :: wordOf r :: wordOf ss.length :: ss.map wordOf
  | .word v => [wordOf v]

/-- The words of one line, or a refusal (R79). -/
def assembleLine (l : SourceLine) : Option (List Word) := if l.accepted then some l.words else none

/-- The words of a program: its lines in order (R78, R79). -/
def assemble : List SourceLine → Option (List Word)
  | [] => some []
  | l :: ls => (assembleLine l).bind fun ws => (assemble ls).map fun rest => ws ++ rest

/-- A blank character inside a line. -/
def isBlank (c : Char) : Bool := c == ' ' || c == '\t' || c == '\r'

/-- A text without the blanks at its two ends. -/
def trimBlanks (cs : List Char) : List Char := ((cs.dropWhile isBlank).reverse.dropWhile isBlank).reverse

/-- The pieces of a text between the characters equal to `sep`. -/
def splitChars (sep : Char) (cs : List Char) : List (List Char) :=
  cs.foldr (fun c acc =>
    if c == sep then [] :: acc
    else match acc with
      | [] => [[c]]
      | p :: ps => (c :: p) :: ps) [[]]

/-- The digits of a decimal integer (R79): the place of a digit is its value. -/
def decimalDigits : List Char := ['0', '1', '2', '3', '4', '5', '6', '7', '8', '9']

/-- The digits of an integer after `0x` (R79); either case is read. -/
def hexDigits : List Char := decimalDigits ++ ['a', 'b', 'c', 'd', 'e', 'f']

/-- The number written with the given digits, after a part already read; a character that is no digit refuses it. -/
def readDigits (digits : List Char) (acc : Nat) (cs : List Char) : Option Nat :=
  cs.foldlM (fun n c => (digits.idxOf? c.toLower).map fun d => n * digits.length + d) acc

/-- A number without a sign: decimal, or hexadecimal with `0x` (R79); it has at least one digit. -/
def readNat : List Char → Option Nat
  | [] => none
  | ['0', 'x'] => none
  | '0' :: 'x' :: cs => readDigits hexDigits 0 cs
  | cs => readDigits decimalDigits 0 cs

/-- An integer, which may be negative (R79). -/
def readInt : List Char → Option Int
  | '-' :: cs => (readNat cs).map fun n => -(n : Int)
  | cs => (readNat cs).map fun n => (n : Int)

/-- Every operand of a list of texts. -/
def readInts : List (List Char) → Option (List Int)
  | [] => some []
  | cs :: rest => (readInt (trimBlanks cs)).bind fun v => (readInts rest).map fun vs => v :: vs

/-- The operands after a mnemonic: none, or texts between commas (R79). -/
def readOperands (cs : List Char) : Option (List Int) :=
  if trimBlanks cs = [] then some [] else readInts (splitChars ',' cs)

/-- The line a mnemonic and its operands make (R79, R80); another mnemonic or another number of operands is no line. -/
def lineOf (mnemonic : List Char) (vs : List Int) : Option SourceLine :=
  if mnemonic = ['E', 'N', 'C'] then
    match vs with
    | [s] => some (.enc s)
    | _ => none
  else if mnemonic = ['E', 'N', 'C', 'V'] then some (.encv vs)
  else if mnemonic = ['H', 'D', 'R', '.', 'P', 'C', 'M', '8'] then
    match vs with
    | [r, l] => some (.hdrPcm8 r l)
    | _ => none
  else if mnemonic = ['H', 'D', 'R', '.', 'A', 'L', 'A', 'W', '8'] then
    match vs with
    | [r, l] => some (.hdrAlaw8 r l)
    | _ => none
  else if mnemonic = ['F', 'R', 'A', 'M', 'E', '.', 'P', 'C', 'M', '8'] then
    match vs with
    | r :: bs => some (.framePcm8 r bs)
    | _ => none
  else if mnemonic = ['F', 'R', 'A', 'M', 'E', '.', 'A', 'L', 'A', 'W', '8'] then
    match vs with
    | r :: bs => some (.frameAlaw8 r bs)
    | _ => none
  else if mnemonic = ['F', 'R', 'A', 'M', 'E', 'A'] then
    match vs with
    | r :: ss => some (.framea r ss)
    | _ => none
  else if mnemonic = ['.', 'w', 'o', 'r', 'd'] then
    match vs with
    | [v] => some (.word v)
    | _ => none
  else none

/-- The code of a line: what stands before `;` (R79), without the blanks at its ends. -/
def codeOf (cs : List Char) : List Char := trimBlanks (cs.takeWhile fun c => c != ';')

/-- One line of text: no command (`some none`), a command, or a refusal. -/
def readLine (cs : List Char) : Option (Option SourceLine) :=
  if codeOf cs = [] then some none
  else
    (readOperands ((codeOf cs).dropWhile fun c => !isBlank c)).bind fun vs =>
      (lineOf ((codeOf cs).takeWhile fun c => !isBlank c) vs).map some

/-- The lines of a text, one command a line (R79). -/
def readLines : List (List Char) → Option (List SourceLine)
  | [] => some []
  | cs :: rest =>
    (readLine cs).bind fun l => (readLines rest).map fun ls =>
      match l with
      | some line => line :: ls
      | none => ls

/-- The words of a program text (R79, R80); the lexical details are DESIGN CHOICES, log entry 15. -/
def assembleText (text : List Char) : Option (List Word) := (readLines (splitChars '\n' text)).bind assemble

end Sys2Proof.Machine
end

