-- ==== Sys2Proof/Machine/System.lean ====
section
/-! DEFINITION. The host's side of the block boundary (spec/70_reset_and_hazards.md R248), reset (R240), runs of block and host
steps in one total order (20_memory.md R48), and independent instances (60_exceptions.md R218). -/

namespace Sys2Proof.Machine

/-- What the host may do at the boundary (R248). Rewriting an appended word is no move (D28, I21; DEDUCED, log entry 11). -/
inductive HostAction where
  /-- One 32-bit word at the end of IN. -/
  | append (w : Word)
  | reset
  | readOut (i : Nat)
  | readStatus
  | readIp
  | writeStatus (v : Word)
  | writeIp (v : Nat)
deriving DecidableEq, Repr

/-- What the block gives back (R248). -/
inductive HostReply where
  | nothing
  | byte (b : Byte)
  | status (v : Word)
  | index (n : Nat)
deriving DecidableEq, Repr

/-- The host appends one word; liberty at any time, even when halted (R25, R248). -/
def State.hostAppend (s : State) (w : Word) : State := { s with IN := s.IN ++ [w] }

/-- The state after a host action: only append and reset change anything (R28, R29, R47, R240, R248). -/
def State.hostAct (s : State) : HostAction → State
  | .append w => s.hostAppend w
  | .reset => State.reset
  | .readOut _ => s
  | .readStatus => s
  | .readIp => s
  | .writeStatus _ => s
  | .writeIp _ => s

/-- What the host reads; `OUT[i]` exists for `i < len(OUT)` only, and beyond it the interface gives nothing (R248; DESIGN CHOICE,
log entry 19). -/
def State.hostReply (s : State) : HostAction → HostReply
  | .append _ => .nothing
  | .reset => .nothing
  | .readOut i => match s.OUT[i]? with
    | some b => .byte b
    | none => .nothing
  | .readStatus => .status s.readStatus
  | .readIp => .index s.ip
  | .writeStatus _ => .nothing
  | .writeIp _ => .nothing

/-- The state after one block step. -/
def State.blockStep (s : State) : State :=
  match step s with
  | .next t => t
  | .fault _ => s
  | .refused _ => s

/-- One step of the whole: the block's or the host's (R48). -/
inductive Event where
  | block
  | host (a : HostAction)
deriving DecidableEq, Repr

/-- The state after one event. -/
def State.event (s : State) : Event → State
  | .block => s.blockStep
  | .host a => s.hostAct a

/-- The state after a sequence of events, in their total order (R48). -/
def State.events (s : State) : List Event → State
  | [] => s
  | e :: es => (s.event e).events es

/-- `n` block steps. -/
def State.blockSteps (s : State) : Nat → State
  | 0 => s
  | n + 1 => s.blockStep.blockSteps n

/-- The host appends each of the words in order. -/
def State.hostAppends (s : State) : List Word → State
  | [] => s
  | w :: ws => (s.hostAppend w).hostAppends ws

/-- An event of instance `k` of several blocks: each has its own state, and nothing is shared (R218). DESIGN CHOICE, log entry 25:
every instance is built with the same STRICT_CONFIG; R23 and R242 fix it for one block and R218 is silent on it. -/
def instanceEvent (blocks : List State) (k : Nat) (e : Event) : List State :=
  blocks.modify k fun s => s.event e

end Sys2Proof.Machine
end

