-- ==== Sys2Proof/Safety.lean ====
section
/-! DEFINITION. The terms claims use: how the block's step would end (spec/60_exceptions.md R200), how a run stands
(70_reset_and_hazards.md R247), which error comes first (60_exceptions.md R211), what a whole command does, and the
invariant of the machine. -/

namespace Sys2Proof.Machine

/-- How the rule of a command would end in this state (R200). -/
def ruleOf (s : State) : Instr → Ending
  | .enc => encRule s
  | .encv => encvRule s
  | .hdrPcm8 => hdrRule Config.strictConfig .pcm8 s
  | .hdrAlaw8 => hdrRule Config.strictConfig .alaw8 s
  | .framePcm8 => frameRule Config.strictConfig .pcm8 s
  | .frameAlaw8 => frameRule Config.strictConfig .alaw8 s
  | .framea => frameaRule Config.strictConfig s

/-- How the block step would end: a halted or an idle block has no step, like a command that holds (R200). -/
def State.ending (s : State) : Ending :=
  match s.fetch with
  | .halted => .holds
  | .idle => .holds
  | .bad e => .raises (decodeErrCode e)
  | .run i => ruleOf s i

/-- The block has a step (R200). -/
def State.enabled (s : State) : Bool := s.ending != .holds

/-- Final and clean: no error, and every appended word was consumed (R247). -/
def State.finalClean (s : State) : Bool := decide (s.err = 0) && decide (s.ip = s.IN.length)

/-- Final and faulted: an error is recorded (R247, R212). -/
def State.finalFaulted (s : State) : Bool := decide (s.err ≠ 0)

/-- Waiting: no error, words pending, and the command at ip holds; not final (R247, R243). -/
def State.waiting (s : State) : Bool := decide (s.err = 0) && decide (s.ip < s.IN.length) && !s.enabled

/-- STATUS as R28 lets it be: [31:4] zero, and ERR one of the codes 0 to 6 (I14, I15). -/
def State.statusLegal (s : State) : Bool := decide (s.STATUS.toNat ≤ 6)

/-- The input pointer stays within the stream (R25, R26). -/
def State.ipInStream (s : State) : Bool := decide (s.ip ≤ s.IN.length)

/-- The invariant of the machine: a legal STATUS, and ip within IN. -/
def State.Inv (s : State) : Prop := s.statusLegal = true ∧ s.ipInStream = true

/-- The states that block and host steps reach from reset (R48, R241). -/
def Reachable (s : State) : Prop := ∃ es : List Event, s = State.reset.events es

/-- No event of the sequence is a reset. -/
def noReset (es : List Event) : Bool := es.all fun e => e != .host .reset

/-- The words a sequence of events appends, in order (R25). -/
def appendedWords : List Event → List Word
  | [] => []
  | .host (.append w) :: es => w :: appendedWords es
  | _ :: es => appendedWords es

/-- The descriptor a frame command's header is built with: ALAW8 for FRAMEA (D25). -/
def formatOf : Instr → Option Format
  | .enc => none
  | .encv => none
  | .hdrPcm8 => some .pcm8
  | .hdrAlaw8 => some .alaw8
  | .framePcm8 => some .pcm8
  | .frameAlaw8 => some .alaw8
  | .framea => some .alaw8

/-- FRAME.PCM8 and FRAME.ALAW8, the commands that can raise DATA_RANGE (R205). -/
def carriesPayload (i : Instr) : Bool := decide (i = .framePcm8 ∨ i = .frameAlaw8)

/-- The code of the first error that applies, in the order of R211, and 0 where none does yet: the decode errors on the
command word alone; RATE, LEN too large, LEN zero once Avail(3) holds; a bad payload word once Avail(3+LEN) holds. -/
def State.firstError (s : State) : BitVec 4 :=
  if s.avail 1 then
    match decode (s.inWord 0) with
    | .error .illegalCommand => 1
    | .error .badFormat => 2
    | .command i =>
      match formatOf i with
      | none => 0
      | some f =>
        if ¬ s.avail 3 then 0
        else if s.rate = 0 ∧ Config.strictConfig then 4
        else if s.len > 0xFFFFFFFF - (descOf f).tail then 6
        else if s.len = 0 ∧ Config.strictConfig then 5
        else if carriesPayload i ∧ s.avail (3 + s.len) ∧ (s.inWords 3 s.len).any payloadBad then 3
        else 0
  else 0

/-- What a whole command does, from its argument words alone (R111, R112, R155 to R159). -/
def commandEnding (strict : Bool) : Command → Ending
  | .enc w => .completes [encodeSample w] 2
  | .encv ws => .completes (ws.map encodeSample) (2 + ws.length)
  | .hdrPcm8 r l => checkedEnding strict .pcm8 (uint r) (uint l) (.completes (wavHeader .pcm8 (uint r) (uint l)) 3)
  | .hdrAlaw8 r l => checkedEnding strict .alaw8 (uint r) (uint l) (.completes (wavHeader .alaw8 (uint r) (uint l)) 3)
  | .framePcm8 r bs => checkedEnding strict .pcm8 (uint r) bs.length (payloadEnding .pcm8 (uint r) bs.length bs)
  | .frameAlaw8 r bs => checkedEnding strict .alaw8 (uint r) bs.length (payloadEnding .alaw8 (uint r) bs.length bs)
  | .framea r ws => checkedEnding strict .alaw8 (uint r) ws.length
      (.completes (wavFrame .alaw8 (uint r) (ws.map encodeSample)) (3 + ws.length))

end Sys2Proof.Machine
end

