-- ==== Sys2Proof/Laws/State.lean ====
section
/-! SUPPORT. One lemma per field per state update, and the reads of STATUS after a write of it. -/

namespace Sys2Proof.Machine

@[simp] theorem State.emit_IN (s : State) (bs : List Byte) : (s.emit bs).IN = s.IN := rfl
@[simp] theorem State.emit_ip (s : State) (bs : List Byte) : (s.emit bs).ip = s.ip := rfl
@[simp] theorem State.emit_OUT (s : State) (bs : List Byte) : (s.emit bs).OUT = s.OUT ++ bs := rfl
@[simp] theorem State.emit_STATUS (s : State) (bs : List Byte) : (s.emit bs).STATUS = s.STATUS := rfl

@[simp] theorem State.advance_IN (s : State) (n : Nat) : (s.advance n).IN = s.IN := rfl
@[simp] theorem State.advance_ip (s : State) (n : Nat) : (s.advance n).ip = s.ip + n := rfl
@[simp] theorem State.advance_OUT (s : State) (n : Nat) : (s.advance n).OUT = s.OUT := rfl
@[simp] theorem State.advance_STATUS (s : State) (n : Nat) : (s.advance n).STATUS = s.STATUS := rfl

@[simp] theorem State.writeErr_IN (s : State) (v : BitVec 4) : (s.writeErr v).IN = s.IN := rfl
@[simp] theorem State.writeErr_ip (s : State) (v : BitVec 4) : (s.writeErr v).ip = s.ip := rfl
@[simp] theorem State.writeErr_OUT (s : State) (v : BitVec 4) : (s.writeErr v).OUT = s.OUT := rfl
@[simp] theorem State.writeErr_STATUS (s : State) (v : BitVec 4) : (s.writeErr v).STATUS = v.setWidth 32 := rfl

@[simp] theorem State.raiseError_IN (s : State) (e : ErrCode) : (s.raiseError e).IN = s.IN := rfl
@[simp] theorem State.raiseError_ip (s : State) (e : ErrCode) : (s.raiseError e).ip = s.ip := rfl
@[simp] theorem State.raiseError_OUT (s : State) (e : ErrCode) : (s.raiseError e).OUT = s.OUT := rfl
@[simp] theorem State.raiseError_STATUS (s : State) (e : ErrCode) :
    (s.raiseError e).STATUS = e.code.setWidth 32 := rfl

@[simp] theorem State.hostAppend_IN (s : State) (w : Word) : (s.hostAppend w).IN = s.IN ++ [w] := rfl
@[simp] theorem State.hostAppend_ip (s : State) (w : Word) : (s.hostAppend w).ip = s.ip := rfl
@[simp] theorem State.hostAppend_OUT (s : State) (w : Word) : (s.hostAppend w).OUT = s.OUT := rfl
@[simp] theorem State.hostAppend_STATUS (s : State) (w : Word) : (s.hostAppend w).STATUS = s.STATUS := rfl

/-- The low four bits of a widened code are the code. -/
theorem err_of_code : ∀ v : BitVec 4, (v.setWidth 32 : Word).extractLsb' 0 4 = v := by decide

/-- ERR reads back as written (R28). -/
@[simp] theorem State.writeErr_err (s : State) (v : BitVec 4) : (s.writeErr v).err = v := err_of_code v

@[simp] theorem State.raiseError_err (s : State) (e : ErrCode) : (s.raiseError e).err = e.code :=
  s.writeErr_err e.code

@[simp] theorem State.emit_err (s : State) (bs : List Byte) : (s.emit bs).err = s.err := rfl
@[simp] theorem State.advance_err (s : State) (n : Nat) : (s.advance n).err = s.err := rfl
@[simp] theorem State.hostAppend_err (s : State) (w : Word) : (s.hostAppend w).err = s.err := rfl

/-- Every error code is a nonzero code up to 6 (R202). -/
theorem ErrCode.code_range (e : ErrCode) : e.code ≠ 0 ∧ e.code.toNat ≤ 6 := by
  cases e <;> decide

/-- Two parts of R24 that agree in all four fields are one state. -/
theorem State.eq_of_fields {s t : State} (h1 : s.IN = t.IN) (h2 : s.ip = t.ip) (h3 : s.OUT = t.OUT)
    (h4 : s.STATUS = t.STATUS) : s = t := by
  cases s; cases t; simp_all

end Sys2Proof.Machine
end

