-- ==== Sys2Proof/Laws/Ops.lean ====
section
/-! SUPPORT. What the primitives of spec/00_scope.md R13 say about the pending words, and what the end of a command can do
to a state. -/

namespace Sys2Proof.Machine

theorem State.avail_iff (s : State) (n : Nat) : s.avail n = true ↔ s.ip + n ≤ s.IN.length := by
  simp [State.avail]

/-- From one word on, Avail counts the pending words. -/
theorem State.avail_iff_pending (s : State) {n : Nat} (hn : 1 ≤ n) :
    s.avail n = true ↔ n ≤ s.pending.length := by
  simp only [State.avail_iff, State.pending, List.length_drop]
  omega

theorem State.avail_mono (s : State) {m n : Nat} (h : m ≤ n) (hn : s.avail n = true) : s.avail m = true := by
  rw [State.avail_iff] at *
  omega

theorem State.inWord_eq (s : State) (k : Nat) : s.inWord k = s.pending.getD k 0 := by
  simp [State.inWord, State.pending, List.getD_eq_getElem?_getD]

theorem State.inWords_eq (s : State) (k n : Nat) : s.inWords k n = (s.pending.drop k).take n := by
  simp [State.inWords, State.pending, List.drop_drop]

/-- Under Avail(k+n) there are n words from In(k) on. -/
theorem State.inWords_length (s : State) {k n : Nat} (h : s.avail (k + n) = true) :
    (s.inWords k n).length = n := by
  rw [State.avail_iff] at h
  simp [State.inWords]
  omega

/-- `inWords` lists the words `In(k+i)` in order. -/
theorem State.inWords_eq_map (s : State) {k n : Nat} (h : s.avail (k + n) = true) :
    s.inWords k n = (List.range n).map fun i => s.inWord (k + i) := by
  apply List.ext_getElem
  · simp [s.inWords_length h]
  · intro i h1 h2
    rw [State.avail_iff] at h
    simp at h2
    have h3 : s.ip + (k + i) < s.IN.length := by omega
    simp [State.inWords, State.inWord, List.getD_eq_getElem?_getD, List.getElem?_eq_getElem h3, Nat.add_assoc]

@[simp] theorem State.hostAppend_pending (s : State) (w : Word) (h : s.ip ≤ s.IN.length) :
    (s.hostAppend w).pending = s.pending ++ [w] := by
  simp [State.pending, List.drop_append_of_le_length h]

@[simp] theorem State.finish_IN (s : State) (e : Ending) : (s.finish e).IN = s.IN := by cases e <;> rfl

@[simp] theorem State.finish_holds (s : State) : s.finish .holds = s := rfl

@[simp] theorem State.finish_raises (s : State) (e : ErrCode) : s.finish (.raises e) = s.raiseError e := rfl

@[simp] theorem State.finish_completes_ip (s : State) (bs : List Byte) (n : Nat) :
    (s.finish (.completes bs n)).ip = s.ip + n := rfl

@[simp] theorem State.finish_completes_OUT (s : State) (bs : List Byte) (n : Nat) :
    (s.finish (.completes bs n)).OUT = s.OUT ++ bs := rfl

@[simp] theorem State.finish_completes_STATUS (s : State) (bs : List Byte) (n : Nat) :
    (s.finish (.completes bs n)).STATUS = s.STATUS := rfl

/-- Only the ending and STATUS decide ERR afterwards. -/
theorem State.finish_completes_err (s : State) (bs : List Byte) (n : Nat) :
    (s.finish (.completes bs n)).err = s.err := rfl

/-- The head of the block step, case by case (R200). -/
theorem State.fetch_cases (s : State) :
    (s.err ≠ 0 ∧ s.fetch = .halted) ∨
    (s.err = 0 ∧ s.avail 1 = false ∧ s.fetch = .idle) ∨
    (s.err = 0 ∧ s.avail 1 = true ∧ ∃ e, decode (s.inWord 0) = .error e ∧ s.fetch = .bad e) ∨
    (s.err = 0 ∧ s.avail 1 = true ∧ ∃ i, decode (s.inWord 0) = .command i ∧ s.fetch = .run i) := by
  unfold State.fetch
  by_cases h : s.err ≠ 0
  · exact .inl ⟨h, if_pos h⟩
  · have h0 : s.err = 0 := by simpa using h
    cases ha : s.avail 1
    · exact .inr (.inl ⟨h0, rfl, by simp [h0]⟩)
    · cases hd : decode (s.inWord 0) with
      | error e => exact .inr (.inr (.inl ⟨h0, rfl, e, rfl, by simp [h0]⟩))
      | command i => exact .inr (.inr (.inr ⟨h0, rfl, i, rfl, by simp [h0]⟩))

end Sys2Proof.Machine
end

