-- ==== Sys2Proof/Laws/Rules.lean ====
section
/-! SUPPORT. What the meanings and the block step can do, said once: each answers the next state that its rule's ending gives,
and each rule ends in one of the ways listed here. -/

namespace Sys2Proof.Machine

/-- Every meaning answers the state its rule's ending gives. -/
theorem exec_eq (i : Instr) (s : State) : exec i s = .next (s.finish (ruleOf s i)) := by
  cases i <;> rfl

/-- The block step answers the state its ending gives (R200). -/
theorem step_eq (s : State) : step s = .next (s.finish s.ending) := by
  unfold step State.ending
  cases s.fetch <;> simp [exec_eq]

theorem State.blockStep_eq (s : State) : s.blockStep = s.finish s.ending := by
  simp [State.blockStep, step_eq]

/-- What a frame command does after its checks (R155 to R159); the two commands that have no format have none. -/
def checkedRest (f : Format) (s : State) : Instr → Ending
  | .enc => .holds
  | .encv => .holds
  | .hdrPcm8 => .completes (wavHeader f s.rate s.len) 3
  | .hdrAlaw8 => .completes (wavHeader f s.rate s.len) 3
  | .framePcm8 => if s.avail (3 + s.len) then payloadEnding f s.rate s.len (s.inWords 3 s.len) else .holds
  | .frameAlaw8 => if s.avail (3 + s.len) then payloadEnding f s.rate s.len (s.inWords 3 s.len) else .holds
  | .framea => if s.avail (3 + s.len) then
      .completes (wavFrame f s.rate ((s.inWords 3 s.len).map encodeSample)) (3 + s.len) else .holds

/-- The five frame commands are one checked rule with their own rest. -/
theorem ruleOf_of_format {i : Instr} {f : Format} (h : formatOf i = some f) (s : State) :
    ruleOf s i = checkedRule Config.strictConfig f s (checkedRest f s i) := by
  cases i <;> cases h <;> rfl

/-- A checked rule past Avail(3) is its checks. -/
theorem checkedRule_of_avail {strict : Bool} {f : Format} {s : State} (rest : Ending) (h : s.avail 3 = true) :
    checkedRule strict f s rest = checkedEnding strict f s.rate s.len rest := if_pos h

/-- A checked rule that completes does so with its rest, under Avail(3). -/
theorem checkedRule_completes {strict : Bool} {f : Format} {s : State} {rest : Ending} {bs : List Byte} {n : Nat}
    (h : checkedRule strict f s rest = .completes bs n) :
    s.avail 3 = true ∧ frameCheck strict f s.rate s.len = none ∧ rest = .completes bs n := by
  unfold checkedRule checkedEnding at h
  split at h
  · split at h
    · cases h
    · exact ⟨by assumption, by assumption, h⟩
  · cases h

/-- A checked rule that raises does so by its check or by its rest. -/
theorem checkedRule_raises {strict : Bool} {f : Format} {s : State} {rest : Ending} {e : ErrCode}
    (h : checkedRule strict f s rest = .raises e) :
    s.avail 3 = true ∧ (frameCheck strict f s.rate s.len = some e ∨
      (frameCheck strict f s.rate s.len = none ∧ rest = .raises e)) := by
  unfold checkedRule checkedEnding at h
  split at h
  · split at h
    · cases h
      exact ⟨by assumption, .inl (by assumption)⟩
    · exact ⟨by assumption, .inr ⟨by assumption, h⟩⟩
  · cases h

/-- No payload word is bad exactly where none of them has a bit of [31:8] set (R72). -/
theorem firstBadPayload_eq_none (ws : List Word) : firstBadPayload ws = none ↔ ∀ w ∈ ws, payloadBad w = false := by
  simp [firstBadPayload, List.findIdx?_eq_none_iff]

/-- A payload of bytes makes the frame (R157). -/
theorem payloadEnding_of_bytes {f : Format} {rate len : Nat} {ws : List Word} (h : ∀ w ∈ ws, payloadBad w = false) :
    payloadEnding f rate len ws = .completes (wavFrame f rate (ws.map payloadByte)) (3 + len) := by
  rw [payloadEnding, (firstBadPayload_eq_none ws).mpr h]

/-- A payload with a bad word raises DATA_RANGE (R205). -/
theorem payloadEnding_of_bad {f : Format} {rate len : Nat} {ws : List Word} (h : ∃ w ∈ ws, payloadBad w = true) :
    payloadEnding f rate len ws = .raises .dataRange := by
  obtain ⟨w, hw, hb⟩ := h
  cases hf : firstBadPayload ws with
  | some i => rw [payloadEnding, hf]
  | none => simp [(firstBadPayload_eq_none ws).mp hf w hw] at hb

/-- The three errors of the checks (R206, R207, R208). -/
theorem frameCheck_some {strict : Bool} {f : Format} {rate len : Nat} {e : ErrCode}
    (h : frameCheck strict f rate len = some e) :
    e = .configZeroRate ∨ e = .sizeOverflow ∨ e = .configEmptyPayload := by
  unfold frameCheck at h
  split_ifs at h <;> simp_all

/-- The checks pass exactly where none of R206, R207, R208 applies. -/
theorem frameCheck_none {strict : Bool} {f : Format} {rate len : Nat} :
    frameCheck strict f rate len = none ↔
      (strict = true → rate ≠ 0 ∧ len ≠ 0) ∧ len ≤ u32Max - (descOf f).tail := by
  unfold frameCheck
  cases strict <;> split_ifs <;> simp_all

/-- A checked length leaves room for the RIFF chunk size (R145, R208). -/
theorem frameCheck_fits {strict : Bool} {f : Format} {rate len : Nat}
    (h : frameCheck strict f rate len = none) : (descOf f).tail + len < 2 ^ 32 := by
  have := (frameCheck_none.mp h).2
  cases f <;> simp [descOf, u32Max] at * <;> omega

/-- A completing command consumes its length of R69, and all its words are in IN. -/
theorem ruleOf_completes {s : State} {i : Instr} {bs : List Byte} {n : Nat}
    (h : ruleOf s i = .completes bs n) : n = s.cmdLength i ∧ s.avail n = true ∧ 2 ≤ n := by
  have hdr : ∀ {strict f}, hdrRule strict f s = .completes bs n → n = 3 ∧ s.avail n = true ∧ 2 ≤ n := fun h => by
    obtain ⟨ha, -, hr⟩ := checkedRule_completes h
    rw [Ending.completes.injEq] at hr
    obtain ⟨-, rfl⟩ := hr
    exact ⟨rfl, ha, by omega⟩
  have frame : ∀ {strict f}, frameRule strict f s = .completes bs n →
      n = 3 + s.len ∧ s.avail n = true ∧ 2 ≤ n := fun h => by
    obtain ⟨-, -, hr⟩ := checkedRule_completes h
    unfold payloadEnding at hr
    split at hr
    · split at hr
      · simp at hr
      · rw [Ending.completes.injEq] at hr
        obtain ⟨-, rfl⟩ := hr
        exact ⟨rfl, by assumption, by omega⟩
    · simp at hr
  cases i with
  | enc =>
    simp only [ruleOf, encRule] at h
    split at h
    · rw [Ending.completes.injEq] at h
      obtain ⟨-, rfl⟩ := h
      exact ⟨rfl, by assumption, by omega⟩
    · simp at h
  | encv =>
    simp only [ruleOf, encvRule] at h
    split at h
    · split at h
      · rw [Ending.completes.injEq] at h
        obtain ⟨-, rfl⟩ := h
        exact ⟨rfl, by assumption, by omega⟩
      · simp at h
    · simp at h
  | hdrPcm8 | hdrAlaw8 => exact hdr h
  | framePcm8 | frameAlaw8 => exact frame h
  | framea =>
    obtain ⟨-, -, hr⟩ := checkedRule_completes (show frameaRule _ s = _ from h)
    split at hr
    · rw [Ending.completes.injEq] at hr
      obtain ⟨-, rfl⟩ := hr
      exact ⟨rfl, by assumption, by omega⟩
    · simp at hr

/-- A command's rule raises none of the two decode errors (R201, R202). -/
theorem ruleOf_raises {s : State} {i : Instr} {e : ErrCode} (h : ruleOf s i = .raises e) :
    e ≠ .illegalCommand ∧ e ≠ .badFormat := by
  have check : ∀ {strict f}, frameCheck strict f s.rate s.len = some e → e ≠ .illegalCommand ∧ e ≠ .badFormat :=
    fun hc => by rcases frameCheck_some hc with rfl | rfl | rfl <;> decide
  have hdr : ∀ {strict f}, hdrRule strict f s = .raises e → e ≠ .illegalCommand ∧ e ≠ .badFormat := fun h => by
    obtain ⟨-, hc | ⟨-, hr⟩⟩ := checkedRule_raises h
    · exact check hc
    · simp at hr
  have frame : ∀ {strict f}, frameRule strict f s = .raises e → e ≠ .illegalCommand ∧ e ≠ .badFormat := fun h => by
    obtain ⟨-, hc | ⟨-, hr⟩⟩ := checkedRule_raises h
    · exact check hc
    · unfold payloadEnding at hr
      split at hr
      · split at hr
        · rw [Ending.raises.injEq] at hr
          exact hr ▸ by decide
        · simp at hr
      · simp at hr
  cases i with
  | enc =>
    simp only [ruleOf, encRule] at h
    split at h <;> simp at h
  | encv =>
    simp only [ruleOf, encvRule] at h
    split at h
    · split at h <;> simp at h
    · simp at h
  | hdrPcm8 | hdrAlaw8 => exact hdr h
  | framePcm8 | frameAlaw8 => exact frame h
  | framea =>
    obtain ⟨-, hc | ⟨-, hr⟩⟩ := checkedRule_raises (show frameaRule _ s = _ from h)
    · exact check hc
    · split at hr <;> simp at hr

/-- The block step's ending, case by case: no step, a decode error, or the rule of the command at ip. -/
theorem State.ending_cases (s : State) :
    (s.ending = .holds ∧ (s.err ≠ 0 ∨ s.avail 1 = false)) ∨
    (s.err = 0 ∧ s.avail 1 = true ∧ ∃ e, decode (s.inWord 0) = .error e ∧ s.ending = .raises (decodeErrCode e)) ∨
    (s.err = 0 ∧ s.avail 1 = true ∧ ∃ i, decode (s.inWord 0) = .command i ∧ s.ending = ruleOf s i) := by
  unfold State.ending
  rcases s.fetch_cases with ⟨h, hf⟩ | ⟨h, ha, hf⟩ | ⟨h, ha, e, hd, hf⟩ | ⟨h, ha, i, hd, hf⟩
  · exact .inl ⟨by rw [hf], .inl h⟩
  · exact .inl ⟨by rw [hf], .inr ha⟩
  · exact .inr (.inl ⟨h, ha, e, hd, by rw [hf]⟩)
  · exact .inr (.inr ⟨h, ha, i, hd, by rw [hf]⟩)

/-- A completing step: the command at ip is whole in IN, and no error was recorded. -/
theorem State.ending_completes {s : State} {bs : List Byte} {n : Nat} (h : s.ending = .completes bs n) :
    s.err = 0 ∧ s.avail n = true ∧ 2 ≤ n ∧ ∃ i, decode (s.inWord 0) = .command i ∧ n = s.cmdLength i := by
  rcases s.ending_cases with ⟨he, -⟩ | ⟨-, -, e, -, he⟩ | ⟨h0, -, i, hd, he⟩
  · simp [he] at h
  · simp [he] at h
  · obtain ⟨hn, ha, h2⟩ := ruleOf_completes (he ▸ h)
    exact ⟨h0, ha, h2, i, hd, hn⟩

/-- A raising step: no error was recorded before. -/
theorem State.ending_raises {s : State} {e : ErrCode} (h : s.ending = .raises e) : s.err = 0 := by
  rcases s.ending_cases with ⟨he, -⟩ | ⟨h0, -⟩ | ⟨h0, -⟩
  · simp [he] at h
  · exact h0
  · exact h0

/-- A halted block has no step (R212). -/
theorem State.ending_halted {s : State} (h : s.err ≠ 0) : s.ending = .holds := by
  rcases s.ending_cases with ⟨he, -⟩ | ⟨h0, -⟩ | ⟨h0, -⟩
  · exact he
  · exact absurd h0 h
  · exact absurd h0 h

/-- The reads of a rule from the pending words: two states with the same pending words have the same rule ending. -/
theorem ruleOf_congr {s t : State} (h : s.pending = t.pending) (i : Instr) : ruleOf s i = ruleOf t i := by
  have ha : ∀ n, 1 ≤ n → s.avail n = t.avail n := fun n hn => by
    rw [Bool.eq_iff_iff, s.avail_iff_pending hn, t.avail_iff_pending hn, h]
  have hw : ∀ k, s.inWord k = t.inWord k := fun k => by rw [s.inWord_eq, t.inWord_eq, h]
  have hws : ∀ k n, s.inWords k n = t.inWords k n := fun k n => by rw [s.inWords_eq, t.inWords_eq, h]
  have hc : s.count = t.count := by simp [State.count, hw]
  have hl : s.len = t.len := by simp [State.len, hw]
  have hr : s.rate = t.rate := by simp [State.rate, hw]
  have h2 := ha 2 (by omega)
  have h3 := ha 3 (by omega)
  have h2n := ha (2 + t.count) (by omega)
  have h3n := ha (3 + t.len) (by omega)
  cases i <;>
    simp only [ruleOf, encRule, encvRule, hdrRule, frameRule, frameaRule, checkedRule, hw, hws, hc, hl, hr,
      h2, h3, h2n, h3n]

/-- Two states with the same ERR and the same pending words step alike (R21, R154). -/
theorem State.ending_congr {s t : State} (he : s.err = t.err) (hp : s.pending = t.pending) : s.ending = t.ending := by
  have h1 : s.avail 1 = t.avail 1 := by
    rw [Bool.eq_iff_iff, s.avail_iff_pending le_rfl, t.avail_iff_pending le_rfl, hp]
  have hw : s.inWord 0 = t.inWord 0 := by rw [s.inWord_eq, t.inWord_eq, hp]
  unfold State.ending State.fetch
  rw [he, h1, hw]
  split_ifs
  · rfl
  · cases decode (t.inWord 0) <;> simp [ruleOf_congr hp]
  · rfl

end Sys2Proof.Machine
end

