-- ==== Sys2Proof/Laws/Alaw.lean ====
section
/-! SUPPORT. The A-Law encoder's parts in arithmetic: the segment as a chain of comparisons (spec/40_alaw_encoder.md R106),
the mantissa by division (R107, R108), and the code below 128 apart from its sign (R109). -/

namespace Sys2Proof.Machine

/-- The cascade of R106 written out. -/
theorem alawSegment_eq (m : Nat) : alawSegment m =
    if m ≥ 16318 then 7 else if m ≥ 8159 then 6 else if m ≥ 4079 then 5 else if m ≥ 2039 then 4
    else if m ≥ 1019 then 3 else if m ≥ 509 then 2 else if m ≥ 254 then 1 else 0 := by
  simp [alawSegment, segmentCascade, alawThresholds]

theorem alawSegment_le (m : Nat) : alawSegment m ≤ 7 := by
  rw [alawSegment_eq]
  split_ifs <;> omega

/-- The mantissa by division and remainder (R107, R108). -/
theorem alawMantissa_eq (seg m : Nat) :
    alawMantissa seg m = if seg ≥ 1 then m / 2 ^ (seg + 3) % 16 else m / 16 := by
  have h : ∀ x : Nat, x &&& 0x0F = x % 16 := fun x => Nat.and_two_pow_sub_one_eq_mod x 4
  simp [alawMantissa, Nat.shiftRight_eq_div_pow, h]

/-- The mantissa of a magnitude's own segment has four bits (R107, R108). -/
theorem alawMantissa_lt (m : Nat) : alawMantissa (alawSegment m) m < 16 := by
  rw [alawMantissa_eq]
  by_cases h : alawSegment m ≥ 1
  · rw [if_pos h]; omega
  · rw [if_neg h]
    rw [alawSegment_eq] at h
    split_ifs at h <;> omega

/-- The code without its sign, as a number: `seg * 16 + mant`, or 127 from the cutoff on. -/
def alawUnsigned (m : Nat) : Nat :=
  if m ≥ 32635 then 127 else alawSegment m * 16 + alawMantissa (alawSegment m) m

theorem alawUnsigned_lt (m : Nat) : alawUnsigned m < 128 := by
  have h1 := alawSegment_le m
  have h2 := alawMantissa_lt m
  unfold alawUnsigned
  split_ifs <;> omega

/-- The fields of R60 do not overlap, so the bitwise or is a sum (R109). -/
theorem alawSegmentPath_eq (m : Nat) (neg : Bool) : alawSegmentPath (if neg then 0x80 else 0) m =
    (if neg then 128 else 0) + (alawSegment m * 16 + alawMantissa (alawSegment m) m) := by
  have h1 := alawSegment_le m
  have h2 := alawMantissa_lt m
  unfold alawSegmentPath
  generalize alawMantissa (alawSegment m) m = t at *
  generalize alawSegment m = g at *
  have key : ∀ g < 8, ∀ t < 16, ∀ n : Bool, (if n then 0x80 else 0) ||| (g <<< 4) ||| t =
      (if n then 128 else 0) + (g * 16 + t) := by decide
  exact key g (by omega) t h2 neg

/-- The code of a sign and a magnitude as a sum (R104, R109). -/
theorem alawCode_eq (m : Nat) (neg : Bool) :
    alawCode (if neg then 0x80 else 0) m = (if neg then 128 else 0) + alawUnsigned m := by
  unfold alawCode alawUnsigned
  by_cases h : m ≥ 32635
  · rw [if_pos (show m ≥ alawCutoff from h), if_pos h]
    cases neg <;> rfl
  · rw [if_neg (show ¬ m ≥ alawCutoff from h), if_neg h, alawSegmentPath_eq]

/-- The code of an integer: its sign bit, and the code of its absolute value. Beyond the 16-bit range the clamp of R101
cannot be told from the cutoff of R104. -/
theorem alawEncode_toNat (v : Int) :
    (alawEncode v).toNat = (if v < 0 then 128 else 0) + alawUnsigned v.natAbs := by
  have hs : alawSign (alawClamp v) = if decide (v < 0) then 0x80 else 0 := by
    simp only [alawSign, alawClamp, clamp]
    by_cases h : v < 0 <;> simp [h]
  have hm : alawUnsigned (alawMag (alawClamp v)) = alawUnsigned v.natAbs := by
    by_cases h : v.natAbs < 32635
    · congr 1
      simp only [alawMag, alawClamp, clamp]
      split_ifs <;> omega
    · have h' : alawMag (alawClamp v) ≥ 32635 := by
        simp only [alawMag, alawClamp, clamp]
        split_ifs <;> omega
      simp [alawUnsigned, h', show v.natAbs ≥ 32635 by omega]
  have hlt := alawUnsigned_lt v.natAbs
  rw [alawEncode, hs, alawCode_eq, hm, BitVec.toNat_ofNat, Nat.mod_eq_of_lt]
  · simp
  · split_ifs <;> omega

end Sys2Proof.Machine
end

