-- ==== Sys2Proof/Laws/PerInstr.lean ====
section
/-! SUPPORT. Statements for all instructions, one lemma per constructor: the command word of each instruction decodes to it
(spec/30_encoding.md R67, R77). -/

namespace Sys2Proof.Laws.WordDecodes

/-- The command word of the instruction decodes to the instruction, in the table's numbering too. -/
def Statement (i : Instr) : Prop :=
  decode (commandWord i) = .command i ∧ decodeTableWord 32 (commandWord i).toNat = some i

theorem enc : Statement .enc := by unfold Statement; decide
theorem encv : Statement .encv := by unfold Statement; decide
theorem hdrPcm8 : Statement .hdrPcm8 := by unfold Statement; decide
theorem hdrAlaw8 : Statement .hdrAlaw8 := by unfold Statement; decide
theorem framePcm8 : Statement .framePcm8 := by unfold Statement; decide
theorem frameAlaw8 : Statement .frameAlaw8 := by unfold Statement; decide
theorem framea : Statement .framea := by unfold Statement; decide

end Sys2Proof.Laws.WordDecodes
end

