-- ==== Sys2Proof/Laws/Codec.lean ====
section
/-! SUPPORT. A command word is its three fields (spec/30_encoding.md R66), and the counted items of a command read back (R69,
R70). -/

namespace Sys2Proof

theorem opField_toNat (w : Word) : (opField w).toNat = w.toNat / 2 ^ 24 % 2 ^ 8 := by
  simp [opField, BitVec.extractLsb'_toNat, Nat.shiftRight_eq_div_pow]

theorem rsvField_toNat (w : Word) : (rsvField w).toNat = w.toNat / 2 ^ 16 % 2 ^ 8 := by
  simp [rsvField, BitVec.extractLsb'_toNat, Nat.shiftRight_eq_div_pow]

theorem imm16Field_toNat (w : Word) : (imm16Field w).toNat = w.toNat % 2 ^ 16 := by
  simp [imm16Field, BitVec.extractLsb'_toNat]

/-- Two command words with the same OP, RSV and IMM16 are one word (R66). -/
theorem word_eq_iff_fields (w v : Word) :
    w = v ↔ opField w = opField v ∧ rsvField w = rsvField v ∧ imm16Field w = imm16Field v := by
  constructor
  · rintro rfl
    exact ⟨rfl, rfl, rfl⟩
  · rintro ⟨ho, hr, hm⟩
    have ho' := congrArg BitVec.toNat ho
    have hr' := congrArg BitVec.toNat hr
    have hm' := congrArg BitVec.toNat hm
    rw [opField_toNat, opField_toNat] at ho'
    rw [rsvField_toNat, rsvField_toNat] at hr'
    rw [imm16Field_toNat, imm16Field_toNat] at hm'
    apply BitVec.eq_of_toNat_eq
    have := w.isLt
    have := v.isLt
    omega

/-- The count word of few enough items is their number (R70). -/
theorem countWord_toNat {xs : List Word} (h : xs.length < 2 ^ 32) : (countWord xs).toNat = xs.length := by
  rw [countWord, BitVec.toNat_ofNat, Nat.mod_eq_of_lt h]

/-- Counted items, followed by anything, are read whole (R69). -/
theorem takeItems_append {xs : List Word} (h : xs.length < 2 ^ 32) (mk : List Word → Command) (rest : List Word) :
    takeItems (countWord xs).toNat mk (xs ++ rest) = .complete (mk xs) rest := by
  simp [takeItems, countWord_toNat h]

end Sys2Proof
end

