-- ==== Sys2Proof/Laws/Events.lean ====
section
/-! SUPPORT. Block steps and host appends together (spec/20_memory.md R48, 70_reset_and_hazards.md R243): an append changes no
step the block already had. -/

namespace Sys2Proof.Machine

theorem State.events_append (s : State) (es fs : List Event) :
    s.events (es ++ fs) = (s.events es).events fs := by
  induction es generalizing s with
  | nil => rfl
  | cons e es ih => exact ih _

theorem State.hostAppend_avail (s : State) (w : Word) {n : Nat} (h : s.avail n = true) :
    (s.hostAppend w).avail n = true := by
  rw [State.avail_iff] at *
  simp
  omega

theorem State.hostAppend_inWord (s : State) (w : Word) {k : Nat} (h : s.avail (k + 1) = true) :
    (s.hostAppend w).inWord k = s.inWord k := by
  rw [State.avail_iff] at h
  have hk : s.ip + k < s.IN.length := by omega
  simp [State.inWord, List.getD_eq_getElem?_getD, List.getElem?_append_left hk]

theorem State.hostAppend_inWords (s : State) (w : Word) {k n : Nat} (h : s.avail (k + n) = true) :
    (s.hostAppend w).inWords k n = s.inWords k n := by
  have h' := s.hostAppend_avail w h
  rw [State.inWords_eq_map _ h', State.inWords_eq_map _ h]
  apply List.map_congr_left
  intro i hi
  exact s.hostAppend_inWord w (s.avail_mono (by simp at hi; omega) h)

/-- A rule that does not hold ends the same way after an append (R211: each check needs only words already there). -/
theorem ruleOf_hostAppend {s : State} {i : Instr} (w : Word) (h : ruleOf s i ≠ .holds) :
    ruleOf (s.hostAppend w) i = ruleOf s i := by
  have app : ∀ {n}, s.avail n = true → (s.hostAppend w).avail n = true := s.hostAppend_avail w
  have checked : ∀ {strict f rest rest'}, checkedRule strict f s rest ≠ .holds →
      (s.avail 3 = true → rest ≠ .holds → rest' = rest) →
      checkedRule strict f (s.hostAppend w) rest' = checkedRule strict f s rest := by
    intro strict f rest rest' hne hrest
    unfold checkedRule checkedEnding at hne ⊢
    cases h3 : s.avail 3
    · simp [h3] at hne
    · have hr : (s.hostAppend w).rate = s.rate := by
        simp [State.rate, s.hostAppend_inWord w (s.avail_mono (show 1 + 1 ≤ 3 by omega) h3)]
      have hl : (s.hostAppend w).len = s.len := by
        simp [State.len, s.hostAppend_inWord w (k := 2) h3]
      rw [if_pos rfl, if_pos (app h3), hr, hl]
      rw [h3, if_pos rfl] at hne
      cases hc : frameCheck strict f s.rate s.len with
      | some e => rfl
      | none =>
        rw [hc] at hne
        exact hrest h3 hne
  have len3 : s.avail 3 = true → (s.hostAppend w).rate = s.rate ∧ (s.hostAppend w).len = s.len := fun h3 => by
    simp [State.rate, State.len, s.hostAppend_inWord w (s.avail_mono (show 1 + 1 ≤ 3 by omega) h3),
      s.hostAppend_inWord w (k := 2) h3]
  have hdr : ∀ {strict f}, hdrRule strict f s ≠ .holds → hdrRule strict f (s.hostAppend w) = hdrRule strict f s :=
    fun hne => checked hne fun h3 _ => by rw [(len3 h3).1, (len3 h3).2]
  have frame : ∀ {strict f}, frameRule strict f s ≠ .holds →
      frameRule strict f (s.hostAppend w) = frameRule strict f s := fun hne => checked hne fun h3 hrest => by
    obtain ⟨hr, hl⟩ := len3 h3
    cases hn : s.avail (3 + s.len)
    · simp [hn] at hrest
    · rw [hl, if_pos (app hn), if_pos rfl]
      rw [hr, s.hostAppend_inWords w hn]
  cases i with
  | enc =>
    simp only [ruleOf, encRule] at h ⊢
    cases h2 : s.avail 2
    · simp [h2] at h
    · rw [app h2, s.hostAppend_inWord w h2]
  | encv =>
    simp only [ruleOf, encvRule] at h ⊢
    cases h2 : s.avail 2
    · simp [h2] at h
    · have hc : (s.hostAppend w).count = s.count := by simp [State.count, s.hostAppend_inWord w h2]
      cases hn : s.avail (2 + s.count)
      · simp [h2, hn] at h
      · rw [hc, app h2, app hn, s.hostAppend_inWords w hn]
  | hdrPcm8 | hdrAlaw8 => exact hdr h
  | framePcm8 | frameAlaw8 => exact frame h
  | framea =>
    refine checked h fun h3 hrest => ?_
    obtain ⟨hr, hl⟩ := len3 h3
    cases hn : s.avail (3 + s.len)
    · simp [hn] at hrest
    · rw [hl, hr, if_pos (app hn), if_pos rfl, s.hostAppend_inWords w hn]

end Sys2Proof.Machine
end

