-- ==== Sys2Proof/Laws/Frame.lean ====
section
/-! SUPPORT. The frame buffer's writes byte by byte, the header as one concatenation, and the widths of what the serializer
and the constructor produce. -/

namespace Sys2Proof.Machine

@[simp] theorem le16_length (v : Nat) : (le16 v).length = 2 := rfl
@[simp] theorem le32_length (v : Nat) : (le32 v).length = 4 := rfl
@[simp] theorem tag4_length (t : Tag) : (tag4 t).length = 4 := by cases t <;> rfl
@[simp] theorem leBytes_length (n : Width) (v : Nat) : (leBytes n v).length = n.bytes := by cases n <;> rfl

@[simp] theorem byteOf_toNat (v i : Nat) : (byteOf v i).toNat = v / 2 ^ (8 * i) % 256 := by
  simp [byteOf, Nat.shiftRight_eq_div_pow]

/-- A write changes no buffer's length. -/
@[simp] theorem writeBytes_length (F : List Byte) (addr : Nat) (bs : List Byte) :
    (writeBytes F addr bs).length = F.length := by
  induction bs generalizing F addr with
  | nil => rfl
  | cons b bs ih => simp [writeBytes, ih]

/-- The byte at j after a write that fits the buffer: the written one inside the range, the old one outside (R133). -/
theorem writeBytes_getElem? (F : List Byte) (addr : Nat) (bs : List Byte) (h : addr + bs.length ≤ F.length) (j : Nat) :
    (writeBytes F addr bs)[j]? = if addr ≤ j ∧ j < addr + bs.length then bs[j - addr]? else F[j]? := by
  induction bs generalizing F addr with
  | nil => simp [writeBytes]
  | cons b bs ih =>
    simp only [List.length_cons] at h ⊢
    rw [writeBytes, ih (F.set addr b) (addr + 1) (by simp; omega)]
    by_cases hj : addr = j
    · subst hj
      simp [show addr < F.length by omega]
    · rw [List.getElem?_set_ne hj]
      by_cases hin : addr + 1 ≤ j ∧ j < addr + 1 + bs.length
      · rw [if_pos hin, if_pos (by omega), show j - addr = (j - (addr + 1)) + 1 by omega, List.getElem?_cons_succ]
      · rw [if_neg hin, if_neg (by omega)]

/-- A write right after a finished prefix extends the prefix. -/
theorem writeBytes_append (P R bs : List Byte) (h : bs.length ≤ R.length) :
    writeBytes (P ++ R) P.length bs = (P ++ bs) ++ R.drop bs.length := by
  induction bs generalizing P R with
  | nil => simp [writeBytes]
  | cons b bs ih =>
    cases R with
    | nil => simp at h
    | cons r R =>
      have h' : bs.length ≤ R.length := by simpa using h
      have := ih (P ++ [b]) R h'
      simp only [List.length_append, List.length_cons, List.length_nil, List.append_assoc, List.cons_append,
        List.nil_append] at this
      simpa [writeBytes, List.set_append_right] using this

/-- The same, with the address written as it is in the header (R144). -/
theorem writeBytes_next {P R bs : List Byte} {addr : Nat} (ha : addr = P.length) (h : bs.length ≤ R.length) :
    writeBytes (P ++ R) addr bs = (P ++ bs) ++ R.drop bs.length := ha ▸ writeBytes_append P R bs h

/-- The byte rate is the rate (R142). -/
theorem byteRate_eq (rate : Nat) : rate * wavBlockAlign = rate := Nat.mul_one rate

/-- The fields of R46 in offset order: the header as one concatenation. -/
def headerBytes (d : FormatDesc) (rate len : Nat) : List Byte :=
  tag4 .riff ++ le32 (d.tail + len) ++ tag4 .wave ++ tag4 .fmt ++ le32 d.fmtSize ++ le16 d.code ++ le16 wavChannels ++
    le32 rate ++ le32 rate ++ le16 wavBlockAlign ++ le16 wavBitsPerSample ++
    (if d.hasExtra then le16 0 else []) ++ tag4 .data ++ le32 len

/-- The writes before the extra field, over any buffer that has room for them (R144). -/
theorem headerCommon_eq (d : FormatDesc) (rate len : Nat) (F : List Byte) (h : 36 ≤ F.length) :
    headerCommon d rate len F =
      (tag4 .riff ++ le32 (d.tail + len) ++ tag4 .wave ++ tag4 .fmt ++ le32 d.fmtSize ++ le16 d.code ++
        le16 wavChannels ++ le32 rate ++ le32 rate ++ le16 wavBlockAlign ++ le16 wavBitsPerSample) ++ F.drop 36 := by
  simp only [headerCommon, memWrite, memWriteTag, leBytes, byteRate_eq]
  rw [show writeBytes F 0 (tag4 .riff) = writeBytes ([] ++ F) 0 (tag4 .riff) from rfl]
  iterate 11 rw [writeBytes_next (by simp) (by simp; omega)]
  simp [List.drop_drop]

/-- The writes of R144 over any buffer of length H give the header: every byte of it is written. -/
theorem headerWrites_eq (f : Format) (rate len : Nat) (F : List Byte) (h : F.length = (descOf f).headerLen) :
    headerWrites (descOf f) rate len F = headerBytes (descOf f) rate len := by
  have h36 : 36 ≤ F.length := by rw [h]; cases f <;> decide
  rw [headerWrites, headerCommon_eq _ _ _ _ h36]
  cases f
  · simp only [descOf] at h
    simp only [headerExtra, headerData, dataOffset, descOf, memWrite, memWriteTag, leBytes, headerBytes,
      Bool.false_eq_true, if_false, List.append_nil]
    iterate 2 rw [writeBytes_next (by simp) (by simp; omega)]
    simp [List.drop_drop, h]
  · simp only [descOf] at h
    simp only [headerExtra, headerData, dataOffset, descOf, memWrite, memWriteTag, leBytes, headerBytes, if_true]
    iterate 3 rw [writeBytes_next (by simp) (by simp; omega)]
    simp [List.drop_drop, h]

/-- wav_header as one concatenation (R144). -/
theorem wavHeader_eq (f : Format) (rate len : Nat) : wavHeader f rate len = headerBytes (descOf f) rate len :=
  headerWrites_eq f rate len _ (by simp)

/-- The header has H bytes (R143). -/
@[simp] theorem wavHeader_length (f : Format) (rate len : Nat) :
    (wavHeader f rate len).length = (descOf f).headerLen := by
  rw [wavHeader_eq]
  cases f <;> rfl

/-- A frame has H + L bytes (R151). -/
@[simp] theorem wavFrame_length (f : Format) (rate : Nat) (P : List Byte) :
    (wavFrame f rate P).length = (descOf f).headerLen + P.length := by
  simp [wavFrame]

end Sys2Proof.Machine
end

