-- ==== Sys2Proof/Certificates/Slice0/Obligations.lean ====
section
/-! DEFINITION. The statements for the provers, from the numbered rules of spec/. A word of the stream is written
`s.IN.getD (s.ip + k) 0` where the spec writes In(k), and `raise` is the state with STATUS replaced, as R209 says. -/

open Sys2Proof Sys2Proof.Machine

-- Reset and the state --------------------------------------------------------------------------------------------

/-- R33: the value of every part after reset; once the host has appended words, the block runs the command at IN index 0: its step
is exec of the command whose word is the first one, whatever words follow, and for a whole command it does what the command's
arguments say. -/
def Obligations.ResetValuesAndFirstCommand : Prop :=
  State.reset.IN = [] ∧ State.reset.ip = 0 ∧ State.reset.OUT = [] ∧ State.reset.STATUS = 0x00000000 ∧
  State.reset.hostReply .readIp = .index 0 ∧
  (∀ s : State, s.hostAct .reset = State.reset) ∧
  State.reset.enabled = false ∧
  (∀ (w : Word) (ws : List Word) (i : Instr), decode w = .command i →
    step (State.reset.hostAppends (w :: ws)) = exec i (State.reset.hostAppends (w :: ws))) ∧
  ∀ (c : Command) (rest : List Word), c.wf = true →
    step (State.reset.hostAppends (encode c ++ rest)) =
      .next ((State.reset.hostAppends (encode c ++ rest)).finish (commandEnding Config.strictConfig c))

/-- R213: ERR, once set, is cleared by reset only, and reset clears every part. -/
def Obligations.OnlyResetLeavesTheErrorState : Prop :=
  ∀ s : State, s.err ≠ 0 →
    (∀ e : Event, e ≠ .host .reset → (s.event e).err = s.err) ∧
    (s.event (.host .reset)).err = 0 ∧ (s.event (.host .reset)).IN = [] ∧ (s.event (.host .reset)).ip = 0 ∧
    (s.event (.host .reset)).OUT = []

/-- R212: while ERR is not 0 no step changes anything; the host may go on appending, and the words stay unconsumed; the
state is final and faulted and not a clean end. -/
def Obligations.HaltedBlockStaysHalted : Prop :=
  ∀ (s : State) (es : List Event), s.err ≠ 0 → noReset es = true →
    s.enabled = false ∧ (s.events es).enabled = false ∧
    (s.events es).ip = s.ip ∧ (s.events es).OUT = s.OUT ∧ (s.events es).STATUS = s.STATUS ∧
    (s.events es).IN = s.IN ++ appendedWords es ∧
    (s.events es).finalFaulted = true ∧ (s.events es).finalClean = false

/-- R28, R29, R47, R248: reads have no effect, writes of STATUS and IP are ignored, and a read of STATUS shows ERR with
[31:4] zero. -/
def Obligations.HostReadsAndWritesChangeNothing : Prop :=
  ∀ (s : State) (i n : Nat) (v : Word),
    s.hostAct (.readOut i) = s ∧ s.hostAct .readStatus = s ∧ s.hostAct .readIp = s ∧
    s.hostAct (.writeStatus v) = s ∧ s.hostAct (.writeIp n) = s ∧
    s.hostReply .readIp = .index s.ip ∧
    (∃ r : Word, s.hostReply .readStatus = .status r ∧ r.extractLsb' 4 28 = 0 ∧
      r.extractLsb' 0 4 = s.STATUS.extractLsb' 0 4) ∧
    ((h : i < s.OUT.length) → s.hostReply (.readOut i) = .byte s.OUT[i])

/-- The invariant holds at reset. -/
def Obligations.ResetMeetsTheStateInvariant : Prop := State.reset.Inv

/-- The invariant (STATUS legal by R28 and R202, ip within IN by R25 and R26) is kept by every step. -/
def Obligations.EveryStepKeepsTheStateInvariant : Prop :=
  ∀ s t : State, s.Inv → step s = .next t → t.Inv

/-- Whatever the host does between block steps, every state reached from reset meets the invariant (R48, R248). -/
def Obligations.EveryReachableStateMeetsTheStateInvariant : Prop :=
  ∀ s : State, Reachable s → s.Inv

/-- R28: the block writes ERR only from 0 to a nonzero code, once, and never a reserved code. -/
def Obligations.ErrorCodeIsWrittenOnce : Prop :=
  ∀ s t : State, step s = .next t → t.err ≠ s.err →
    s.err = 0 ∧ 1 ≤ t.err.toNat ∧ t.err.toNat ≤ 6 ∧ t.STATUS.extractLsb' 4 28 = 0 ∧ t.enabled = false

/-- R25, R26, R27: between resets IN only grows at its end, by the host's words alone; ip never decreases; OUT only grows
at its end. -/
def Obligations.StreamsOnlyGrowBetweenResets : Prop :=
  ∀ (s : State) (es : List Event), noReset es = true →
    (s.events es).IN = s.IN ++ appendedWords es ∧ s.ip ≤ (s.events es).ip ∧
    ∃ bs : List Byte, (s.events es).OUT = s.OUT ++ bs

/-- R218: an event of one instance changes that instance alone. -/
def Obligations.InstancesShareNothing : Prop :=
  ∀ (blocks : List State) (k : Nat) (e : Event),
    (instanceEvent blocks k e).length = blocks.length ∧
    (∀ j, j ≠ k → (instanceEvent blocks k e)[j]? = blocks[j]?) ∧
    (instanceEvent blocks k e)[k]? = blocks[k]?.map fun s => s.event e

-- Decoding -------------------------------------------------------------------------------------------------------

/-- R67, R77: the seven command words, and no others, decode to the seven commands. -/
def Obligations.SevenCommandWordsDecode : Prop :=
  ∀ w : Word,
    (decode w = .command .enc ↔ w = 0x01000000) ∧ (decode w = .command .encv ↔ w = 0x02000000) ∧
    (decode w = .command .hdrPcm8 ↔ w = 0x10000001) ∧ (decode w = .command .hdrAlaw8 ↔ w = 0x10000006) ∧
    (decode w = .command .framePcm8 ↔ w = 0x11000001) ∧ (decode w = .command .frameAlaw8 ↔ w = 0x11000006) ∧
    (decode w = .command .framea ↔ w = 0x12000000)

/-- A few words written out from R66 and R67. -/
def Obligations.WrittenOutWordsDecode : Prop :=
  decode 0x01000000 = .command .enc ∧ decode 0x10000006 = .command .hdrAlaw8 ∧
  decode 0x11000001 = .command .framePcm8 ∧ decode 0x12000000 = .command .framea ∧
  decode 0x01010000 = .error .illegalCommand ∧ decode 0x10000002 = .error .badFormat

/-- R69: a well-formed command's words, whatever follows them in the stream, read back as that command. -/
def Obligations.EncodedCommandsReadBack : Prop :=
  ∀ (c : Command) (rest : List Word), c.wf = true → decodeCommand (encode c ++ rest) = .complete c rest

/-- R69, R76: a command read from a stream is well formed, and the stream is its words and the rest. -/
def Obligations.CommandsReadAreEncodings : Prop :=
  ∀ (ws : List Word) (c : Command) (rest : List Word), decodeCommand ws = .complete c rest →
    c.wf = true ∧ ws = encode c ++ rest

/-- R79: an accepted line's words are the encoding of one command with the listed operands; `.word` is apart (R80). -/
def Obligations.AssembledLinesAreCommands : Prop :=
  ∀ (l : SourceLine) (ws rest : List Word), assembleLine l = some ws → (∀ v, l ≠ .word v) →
    ∃ c : Command, c.wf = true ∧ ws = encode c ∧ decodeCommand (ws ++ rest) = .complete c rest ∧
      match l with
      | .enc s => ∃ x, c = .enc x ∧ x.toInt = s
      | .encv ss => ∃ xs, c = .encv xs ∧ xs.map BitVec.toInt = ss
      | .hdrPcm8 r n => ∃ x y, c = .hdrPcm8 x y ∧ (x.toNat : Int) = r ∧ (y.toNat : Int) = n
      | .hdrAlaw8 r n => ∃ x y, c = .hdrAlaw8 x y ∧ (x.toNat : Int) = r ∧ (y.toNat : Int) = n
      | .framePcm8 r bs => ∃ x ys, c = .framePcm8 x ys ∧ (x.toNat : Int) = r ∧ ys.map (fun y => (y.toNat : Int)) = bs
      | .frameAlaw8 r bs => ∃ x ys, c = .frameAlaw8 x ys ∧ (x.toNat : Int) = r ∧ ys.map (fun y => (y.toNat : Int)) = bs
      | .framea r ss => ∃ x ys, c = .framea x ys ∧ (x.toNat : Int) = r ∧ ys.map BitVec.toInt = ss
      | .word _ => False

-- The block step -------------------------------------------------------------------------------------------------

/-- R200: a running block with a command word at ip runs that command; nothing is added around exec. -/
def Obligations.StepRunsTheDecodedCommand : Prop :=
  ∀ (s : State) (i : Instr), s.err = 0 → s.avail 1 = true → decode (s.IN.getD s.ip 0) = .command i →
    step s = exec i s

/-- R203 (with R73 and R74): exactly the words it lists raise ILLEGAL_COMMAND, on the command word alone. -/
def Obligations.IllegalCommandIsRaisedByTheCommandWordAlone : Prop :=
  ∀ (s : State) (w : Word), s.err = 0 → s.IN[s.ip]? = some w →
    ((w.extractLsb' 24 8 ∉ ([0x01, 0x02, 0x10, 0x11, 0x12] : List (BitVec 8)) ∨ w.extractLsb' 16 8 ≠ 0 ∨
        (w.extractLsb' 24 8 ∈ ([0x01, 0x02, 0x12] : List (BitVec 8)) ∧ w.extractLsb' 0 16 ≠ 0)) →
      step s = .next { s with STATUS := 0x00000001 }) ∧
    (¬ (w.extractLsb' 24 8 ∉ ([0x01, 0x02, 0x10, 0x11, 0x12] : List (BitVec 8)) ∨ w.extractLsb' 16 8 ≠ 0 ∨
        (w.extractLsb' 24 8 ∈ ([0x01, 0x02, 0x12] : List (BitVec 8)) ∧ w.extractLsb' 0 16 ≠ 0)) →
      ∃ t, step s = .next t ∧ t.err ≠ 1)

/-- R204: OP 0x10 or 0x11 with RSV 0 and IMM16 neither 1 nor 6 raises BAD_FORMAT on the command word alone, and no other
word does. -/
def Obligations.BadFormatIsRaisedByTheCommandWordAlone : Prop :=
  ∀ (s : State) (w : Word), s.err = 0 → s.IN[s.ip]? = some w →
    (((w.extractLsb' 24 8 = 0x10 ∨ w.extractLsb' 24 8 = 0x11) ∧ w.extractLsb' 16 8 = 0 ∧
        w.extractLsb' 0 16 ≠ 1 ∧ w.extractLsb' 0 16 ≠ 6) →
      step s = .next { s with STATUS := 0x00000002 }) ∧
    (¬ ((w.extractLsb' 24 8 = 0x10 ∨ w.extractLsb' 24 8 = 0x11) ∧ w.extractLsb' 16 8 = 0 ∧
        w.extractLsb' 0 16 ≠ 1 ∧ w.extractLsb' 0 16 ≠ 6) →
      ∃ t, step s = .next t ∧ t.err ≠ 2)

/-- R211: a step of a running block records the first error in the order of R211, and none where none applies yet; a frame
command with a good command word holds until Avail(3), and FRAME and FRAMEA hold again until Avail(3 + LEN). -/
def Obligations.ErrorsFollowThePriorityOrder : Prop :=
  (∀ s t : State, s.err = 0 → step s = .next t → t.err = s.firstError) ∧
  ∀ (s : State) (i : Instr) (f : Format), s.err = 0 → s.avail 1 = true → decode (s.IN.getD s.ip 0) = .command i →
    formatOf i = some f →
    (s.avail 3 = false → s.enabled = false) ∧
    (i ≠ .hdrPcm8 → i ≠ .hdrAlaw8 → s.firstError = 0 → s.avail (3 + (s.IN.getD (s.ip + 2) 0).toNat) = false →
      s.enabled = false)

/-- R200 and the model's choice of log entry 1: the next state is the same state exactly where the block has no step, because
it is halted, idle, or its command holds. -/
def Obligations.StateStaysExactlyWhereThereIsNoStep : Prop :=
  ∀ s : State, step s = .next s ↔ s.enabled = false

/-- R14, R26, R50, R209: a step changes nothing, or it raises one error and changes STATUS alone, or it completes the command
at ip: IN and STATUS stay, ip advances by the command's length of R69, and OUT grows at its end. That a hold answers the same
state is log entry 1. -/
def Obligations.StepHoldsRaisesOrCompletes : Prop :=
  ∀ s t : State, step s = .next t →
    t = s ∨
    (s.err = 0 ∧ ∃ e : ErrCode, t = { s with STATUS := e.code.setWidth 32 }) ∨
    (s.err = 0 ∧ ∃ (i : Instr) (bs : List Byte), decode (s.IN.getD s.ip 0) = .command i ∧
      s.avail (s.cmdLength i) = true ∧ t = { s with ip := s.ip + s.cmdLength i, OUT := s.OUT ++ bs })

/-- The frame of all seven commands: IN never changes, the bytes already in OUT never change, ENC and ENCV leave STATUS, and a
frame command changes STATUS only where it leaves ip and OUT. -/
def Obligations.CommandsChangeNothingElse : Prop :=
  ∀ (i : Instr) (s : State), ∃ t, exec i s = .next t ∧
    t.IN = s.IN ∧ (∀ j < s.OUT.length, t.OUT[j]? = s.OUT[j]?) ∧ s.ip ≤ t.ip ∧
    ((i = .enc ∨ i = .encv) → t.STATUS = s.STATUS) ∧
    (t.STATUS ≠ s.STATUS → t.ip = s.ip ∧ t.OUT = s.OUT)

/-- R21, R154: the step is a function of ERR and the pending words: two states that agree on them, whatever was consumed or
emitted before, append the same bytes, consume the same words and record the same error. -/
def Obligations.StepSeesOnlyThePendingWords : Prop :=
  ∀ s u s' u' : State, s.STATUS = u.STATUS → s.pending = u.pending → step s = .next s' → step u = .next u' →
    s'.STATUS = u'.STATUS ∧ s'.pending = u'.pending ∧
    (∃ n, s'.ip = s.ip + n ∧ u'.ip = u.ip + n) ∧ ∃ bs, s'.OUT = s.OUT ++ bs ∧ u'.OUT = u.OUT ++ bs

/-- R48, R211: an append never changes a step the block already has; the two orders give the same state. -/
def Obligations.AppendCommutesWithAnEnabledStep : Prop :=
  ∀ (s : State) (w : Word), s.enabled = true →
    (s.hostAppend w).enabled = true ∧
    s.events [.host (.append w), .block] = s.events [.block, .host (.append w)]

/-- R48: however the host's appends and the block's steps interleave from reset, once the block has no step left the state is
decided by the appended words alone. -/
def Obligations.SettledStateDependsOnTheWordsAlone : Prop :=
  ∀ es fs : List Event, noReset es = true → noReset fs = true → appendedWords es = appendedWords fs →
    (State.reset.events es).enabled = false → (State.reset.events fs).enabled = false →
    State.reset.events es = State.reset.events fs

/-- R246, R243: without further appends the block settles within one step for each pending word and one for an error. -/
def Obligations.BlockSettlesWithoutTheHost : Prop :=
  ∀ s : State, (s.blockSteps (s.pending.length + 1)).enabled = false

/-- R247: a block without a step is final and clean, final and faulted, or waiting, exactly one of the three; a block with a
step is none of them. -/
def Obligations.EndOfRunIsOneOfThree : Prop :=
  ∀ s : State, s.ip ≤ s.IN.length →
    (s.enabled = false →
      (s.finalClean = true ∧ s.finalFaulted = false ∧ s.waiting = false) ∨
      (s.finalClean = false ∧ s.finalFaulted = true ∧ s.waiting = false) ∨
      (s.finalClean = false ∧ s.finalFaulted = false ∧ s.waiting = true)) ∧
    (s.enabled = true → s.finalClean = false ∧ s.finalFaulted = false ∧ s.waiting = false)

/-- R69, R111, R112, R155 to R159: a running block whose pending words begin with a command's words does what that command does
by its arguments alone, whatever follows. -/
def Obligations.StepDoesWhatTheCommandSays : Prop :=
  ∀ (s : State) (c : Command) (rest : List Word), s.err = 0 → c.wf = true → s.pending = encode c ++ rest →
    step s = .next (s.finish (commandEnding Config.strictConfig c))

-- The A-Law encoder ----------------------------------------------------------------------------------------------

/-- The algorithm of R100: below the cutoff the code is made of the sign, the segment and the mantissa of its magnitude; from
the cutoff on it is the sign and 0x7F. -/
def Obligations.AlawEncodeFollowsTheSteps : Prop :=
  ∀ v : Int, ∃ s : Int, s = max (-32768) (min 32767 v) ∧ ∃ sign mag : Nat,
    sign = (if s ≥ 0 then 0x00 else 0x80) ∧ (mag : Int) = (if s < 0 then -s else s) ∧
    (mag ≥ 32635 → (alawEncode v).toNat = sign ||| 0x7F) ∧
    (mag < 32635 → ∃ seg, seg ≤ 7 ∧ [0, 254, 509, 1019, 2039, 4079, 8159, 16318].getD seg 0 ≤ mag ∧
      (∀ k ≤ 7, [0, 254, 509, 1019, 2039, 4079, 8159, 16318].getD k 0 ≤ mag → k ≤ seg) ∧
      (alawEncode v).toNat = sign ||| (seg <<< 4) |||
        (if seg ≥ 1 then (mag >>> (seg + 3)) &&& 0x0F else mag >>> 4))

/-- R101: the clamp is the identity on int16 and saturates outside it, with no error. -/
def Obligations.OutOfRangeSamplesSaturate : Prop :=
  (∀ v : Int, -32768 ≤ v → v ≤ 32767 → alawClamp v = v) ∧
  (∀ v : Int, 32767 ≤ v → alawClamp v = 32767 ∧ alawEncode v = alawEncode 32767) ∧
  (∀ v : Int, v ≤ -32768 → alawClamp v = -32768 ∧ alawEncode v = alawEncode (-32768)) ∧
  alawClamp 40000 = 32767 ∧ alawClamp (-40000) = -32768 ∧ alawClamp (2 ^ 31 - 1) = 32767

/-- R104: the cutoff; it changes the result at magnitude 32768 only. -/
def Obligations.CutoffGivesTheTopCode : Prop :=
  (∀ v : Int, 32635 ≤ v → alawEncode v = 0x7F) ∧ (∀ v : Int, v ≤ -32635 → alawEncode v = 0xFF) ∧
  (∀ m : Nat, 32635 ≤ m → m ≤ 32767 → alawSegmentPath 0x00 m = 0x7F ∧ alawSegmentPath 0x80 m = 0xFF) ∧
  alawEncode (-32768) = 0xFF ∧ alawSegmentPath 0x80 32768 = 0xF0

/-- R106: the segment is the largest index whose threshold is met, and the ranges of its table. -/
def Obligations.SegmentsCoverTheirRanges : Prop :=
  ∀ m : Nat, m < 32635 →
    alawSegment m ≤ 7 ∧ alawThresholds.getD (alawSegment m) 0 ≤ m ∧
    (∀ k ≤ 7, alawThresholds.getD k 0 ≤ m → k ≤ alawSegment m) ∧
    ((alawEncode (m : Int)).extractLsb' 4 3).toNat = alawSegment m ∧
    ((alawEncode (m : Int)).extractLsb' 0 4).toNat =
      (if alawSegment m = 0 then m >>> 4 else (m >>> ([4, 4, 5, 6, 7, 8, 9, 10].getD (alawSegment m) 0)) % 16) ∧
    (alawSegment m = 0 ↔ m ≤ 253) ∧ (alawSegment m = 1 ↔ 254 ≤ m ∧ m ≤ 508) ∧
    (alawSegment m = 2 ↔ 509 ≤ m ∧ m ≤ 1018) ∧ (alawSegment m = 3 ↔ 1019 ≤ m ∧ m ≤ 2038) ∧
    (alawSegment m = 4 ↔ 2039 ≤ m ∧ m ≤ 4078) ∧ (alawSegment m = 5 ↔ 4079 ≤ m ∧ m ≤ 8158) ∧
    (alawSegment m = 6 ↔ 8159 ≤ m ∧ m ≤ 16317) ∧ (alawSegment m = 7 ↔ 16318 ≤ m)

/-- R108: in segment 0 the mantissa is the magnitude over 16, with no mask; the masked formula would differ. -/
def Obligations.SegmentZeroMantissaIsUnmasked : Prop :=
  (∀ m : Nat, m ≤ 253 → alawSegment m = 0 ∧ alawMantissa 0 m = m / 16 ∧ m / 16 ≤ 15 ∧
    (alawEncode (m : Int)).toNat = m / 16) ∧
  alawMantissa 0 8 = 0 ∧ (8 >>> 3) &&& 0x0F = 1

/-- R113: the sign of the input is bit 7 of the code. -/
def Obligations.CodeRangeFollowsTheSign : Prop :=
  ∀ v : Int, (alawEncode v).toNat ≤ 255 ∧ (v ≥ 0 → (alawEncode v).toNat ≤ 0x7F) ∧ (v < 0 → 0x80 ≤ (alawEncode v).toNat)

/-- R114: a nonzero input and its negation have codes that differ in bit 7 only; at 0 that fails. -/
def Obligations.NegationFlipsTheSignBit : Prop :=
  (∀ x : Int, x ≠ 0 → alawEncode (-x) = alawEncode x ^^^ 0x80) ∧ alawEncode (-0) ≠ alawEncode 0 ^^^ 0x80

/-- R115: exactly seven descents over the magnitudes, and what holds instead of monotonicity, for both signs. -/
def Obligations.SevenDescentsAndNoOthers : Prop :=
  (∀ m : Nat, m ≤ 32766 → ((alawEncode ((m + 1 : Nat) : Int)).toNat < (alawEncode (m : Int)).toNat ↔
    ∃ k, 1 ≤ k ∧ k ≤ 7 ∧ m = 2 ^ (k + 7) - 1)) ∧
  [255, 511, 1023, 2047, 4095, 8191, 16383].map alawEncode = [0x1F, 0x2F, 0x3F, 0x4F, 0x5F, 0x6F, 0x7F] ∧
  [256, 512, 1024, 2048, 4096, 8192, 16384].map alawEncode = [0x10, 0x20, 0x30, 0x40, 0x50, 0x60, 0x70] ∧
  (∀ x y : Nat, x ≤ y → y ≤ 32767 →
    ((alawEncode (x : Int)).extractLsb' 4 3).toNat ≤ ((alawEncode (y : Int)).extractLsb' 4 3).toNat) ∧
  (∀ x y : Nat, x ≤ y → y ≤ 32767 →
    (∀ k, 1 ≤ k → k ≤ 7 → ¬ (alawThresholds.getD k 0 ≤ x ∧ x ≤ 2 ^ (k + 7) - 1)) →
    (∀ k, 1 ≤ k → k ≤ 7 → ¬ (alawThresholds.getD k 0 ≤ y ∧ y ≤ 2 ^ (k + 7) - 1)) →
    (alawEncode (x : Int)).toNat ≤ (alawEncode (y : Int)).toNat) ∧
  ∀ m : Nat, 1 ≤ m → (alawEncode (-(m : Int))).toNat = 128 + (alawEncode (m : Int)).toNat

/-- R116: in wrap band k the code is the top code of segment k; from 2^(k+7) on the mantissa counts from 0. -/
def Obligations.WrapBandsHaveTheTopCode : Prop :=
  ∀ k : Nat, 1 ≤ k → k ≤ 7 →
    2 ^ (k + 7) - alawThresholds.getD k 0 = [0, 2, 3, 5, 9, 17, 33, 66].getD k 0 ∧
    (∀ m : Nat, alawThresholds.getD k 0 ≤ m → m ≤ 2 ^ (k + 7) - 1 →
      m >>> (k + 3) = 15 ∧ (alawEncode (m : Int)).toNat = k * 16 + 15 ∧
      (alawEncode (-(m : Int))).toNat = 0x80 + (k * 16 + 15)) ∧
    ∀ m : Nat, 2 ^ (k + 7) ≤ m → m < 32635 → alawSegment m = k →
      16 ≤ m >>> (k + 3) ∧ m >>> (k + 3) ≤ 31 ∧ (alawEncode (m : Int)).toNat = k * 16 + (m >>> (k + 3) - 16)

/-- R117 and the table of 95_test_vectors.md V2: which magnitudes give each code of either sign, and that every code is produced
for its sign. A code with MANT 15 and SEG at least 1 has two ranges: its wrap band and the top of its segment. -/
def Obligations.EveryCodeHasItsPreimages : Prop :=
  (∀ m : Nat, m ≤ 32767 →
    (∀ j, j ≤ 14 → ((alawEncode (m : Int)).toNat = j ↔ 16 * j ≤ m ∧ m < 16 * (j + 1))) ∧
    ((alawEncode (m : Int)).toNat = 15 ↔ 240 ≤ m ∧ m ≤ 253) ∧
    (∀ k, 1 ≤ k → k ≤ 7 → ∀ j, j ≤ 14 → ((alawEncode (m : Int)).toNat = 16 * k + j ↔
      2 ^ (k + 7) + j * 2 ^ (k + 3) ≤ m ∧ m < 2 ^ (k + 7) + (j + 1) * 2 ^ (k + 3))) ∧
    (∀ k, 1 ≤ k → k ≤ 6 → ((alawEncode (m : Int)).toNat = 16 * k + 15 ↔
      (alawThresholds.getD k 0 ≤ m ∧ m < 2 ^ (k + 7)) ∨
      (2 ^ (k + 7) + 15 * 2 ^ (k + 3) ≤ m ∧ m < alawThresholds.getD (k + 1) 0))) ∧
    ((alawEncode (m : Int)).toNat = 0x7F ↔ (16318 ≤ m ∧ m ≤ 16383) ∨ 31744 ≤ m)) ∧
  (∀ c : Nat, c ≤ 0x7F → ∃ m : Nat, m ≤ 32767 ∧ (alawEncode (m : Int)).toNat = c) ∧
  (∀ m : Nat, 1 ≤ m → m ≤ 32767 → (alawEncode (-(m : Int))).toNat = 0x80 + (alawEncode (m : Int)).toNat) ∧
  (∀ m : Nat, 1 ≤ m → m ≤ 32768 →
    ((alawEncode (-(m : Int))).toNat = 0x80 ↔ m ≤ 15) ∧
    ((alawEncode (-(m : Int))).toNat = 0xFF ↔ (16318 ≤ m ∧ m ≤ 16383) ∨ 31744 ≤ m)) ∧
  alawEncode (-32768) = 0xFF ∧
  ∀ c : Nat, 0x80 ≤ c → c ≤ 0xFF → ∃ m : Nat, 1 ≤ m ∧ m ≤ 32768 ∧ (alawEncode (-(m : Int))).toNat = c

/-- R118: the inputs 0 to 15 give the code 0x00. -/
def Obligations.ZeroEncodesToZero : Prop :=
  alawEncode 0 = 0x00 ∧ ∀ v : Int, 0 ≤ v → v ≤ 15 → alawEncode v = 0x00

/-- R111: the rule of ENC holds below Avail(2), and otherwise ENC emits one code and advances by 2; STATUS and IN stay; the
rule's corner cases and its example. -/
def Obligations.EncEmitsOneCode : Prop :=
  decode 0x01000000 = .command .enc ∧
  (∀ s : State, s.IN.length < s.ip + 2 → ruleOf s .enc = .holds) ∧
  (∀ s : State, s.ip + 2 ≤ s.IN.length →
    exec .enc s = .next { s with ip := s.ip + 2, OUT := s.OUT ++ [alawEncode (s.IN.getD (s.ip + 1) 0).toInt] }) ∧
  alawEncode (0x00000000 : Word).toInt = 0x00 ∧ alawEncode (0xFFFF8000 : Word).toInt = 0xFF ∧
  alawEncode (0x00009C40 : Word).toInt = 0x7F ∧ alawEncode (0x80000000 : Word).toInt = 0xFF ∧
  step { State.reset with IN := [0x01000000, 0x000000FE] } =
    .next { IN := [0x01000000, 0x000000FE], ip := 2, OUT := [0x1F], STATUS := 0 }

/-- R112: the rule of ENCV holds until its N sample words are in IN, and then ENCV emits their codes in sample order; N = 0 emits nothing; the
rule's example. -/
def Obligations.EncvEmitsOneCodePerSample : Prop :=
  decode 0x02000000 = .command .encv ∧
  (∀ s : State, s.IN.length < s.ip + 2 → ruleOf s .encv = .holds) ∧
  (∀ s : State, s.IN.length < s.ip + 2 + (s.IN.getD (s.ip + 1) 0).toNat → ruleOf s .encv = .holds) ∧
  (∀ s : State, s.ip + 2 + (s.IN.getD (s.ip + 1) 0).toNat ≤ s.IN.length →
    exec .encv s = .next { s with
      ip := s.ip + 2 + (s.IN.getD (s.ip + 1) 0).toNat
      OUT := s.OUT ++ (List.range (s.IN.getD (s.ip + 1) 0).toNat).map fun i =>
        alawEncode (s.IN.getD (s.ip + (2 + i)) 0).toInt }) ∧
  (∀ s : State, s.ip + 2 ≤ s.IN.length → s.IN.getD (s.ip + 1) 0 = 0 → exec .encv s = .next { s with ip := s.ip + 2 }) ∧
  step { State.reset with IN := [0x02000000, 2, 0xFFFFFFF0, 0x00000011] } =
    .next { IN := [0x02000000, 2, 0xFFFFFFF0, 0x00000011], ip := 4, OUT := [0x81, 0x01], STATUS := 0 }

-- The serializer and the header ----------------------------------------------------------------------------------

/-- R130, R131: the bytes of le16 and le32, least significant first, by division. -/
def Obligations.SerializerIsLittleEndian : Prop :=
  (∀ v : Nat, v ≤ 0xFFFF → (le16 v).map BitVec.toNat = [v % 256, v / 256]) ∧
  (∀ v : Nat, v ≤ 0xFFFFFFFF →
    (le32 v).map BitVec.toNat = [v % 256, v / 256 % 256, v / 65536 % 256, v / 16777216]) ∧
  le16 6 = [0x06, 0x00] ∧ le32 8000 = [0x40, 0x1F, 0x00, 0x00]

/-- R133: MemWrite and MemWriteTag set their own bytes and no other, at any address with room, and keep the length. For a number
that does not fit the width, which no command writes, the low bytes are the model's choice of log entry 24. -/
def Obligations.MemWriteSetsItsOwnBytes : Prop :=
  (∀ (F : List Byte) (addr : Nat) (n : Width) (v j : Nat), addr + n.bytes ≤ F.length →
    (memWrite F addr n v).length = F.length ∧
    (addr ≤ j → j < addr + n.bytes → ((memWrite F addr n v).getD j 0).toNat = v / 256 ^ (j - addr) % 256) ∧
    (¬ (addr ≤ j ∧ j < addr + n.bytes) → (memWrite F addr n v)[j]? = F[j]?)) ∧
  ∀ (F : List Byte) (addr : Nat) (t : Tag) (j : Nat), addr + 4 ≤ F.length →
    (memWriteTag F addr t).length = F.length ∧
    (addr ≤ j → j < addr + 4 → (memWriteTag F addr t)[j]? = (tag4 t)[j - addr]?) ∧
    (¬ (addr ≤ j ∧ j < addr + 4) → (memWriteTag F addr t)[j]? = F[j]?)

/-- R134: MemRead of bytes of the buffer is their sum by weight, and it reads back what MemWrite wrote. -/
def Obligations.MemReadReadsBack : Prop :=
  (∀ (F : List Byte) (addr n : Nat), addr + n ≤ F.length →
    memRead F addr n = ((List.range n).map fun i => (F.getD (addr + i) 0).toNat * 2 ^ (8 * i)).sum) ∧
  ∀ (F : List Byte) (a : Nat) (n : Width) (v : Nat), a + n.bytes ≤ F.length → v < 2 ^ (8 * n.bytes) →
    memRead (memWrite F a n v) a n.bytes = v

/-- R144: the header's writes give the same H bytes over any buffer of H bytes, so every byte of it is written. -/
def Obligations.HeaderDoesNotDependOnTheNewBuffer : Prop :=
  ∀ (f : Format) (rate len : Nat) (F : List Byte), F.length = (descOf f).headerLen →
    headerWrites (descOf f) rate len F = wavHeader f rate len ∧ (wavHeader f rate len).length = (descOf f).headerLen

/-- R46 (with R140, R141): every row of the frame map, for a rate and a payload the block accepts, and nothing else. The bytes of
the four tags are those of R132, which the spec takes from general knowledge (G2; PRESUMED, log entry 23). -/
def Obligations.FrameHasTheLayoutOfTheMap : Prop :=
  ∀ (rate : Nat) (P : List Byte), rate < 2 ^ 32 →
    (36 + P.length < 2 ^ 32 →
      (wavFrame .pcm8 rate P).take 4 = [0x52, 0x49, 0x46, 0x46] ∧ memRead (wavFrame .pcm8 rate P) 4 4 = 36 + P.length ∧
      ((wavFrame .pcm8 rate P).drop 8).take 4 = [0x57, 0x41, 0x56, 0x45] ∧
      ((wavFrame .pcm8 rate P).drop 12).take 4 = [0x66, 0x6D, 0x74, 0x20] ∧
      memRead (wavFrame .pcm8 rate P) 16 4 = 16 ∧ memRead (wavFrame .pcm8 rate P) 20 2 = 1 ∧
      memRead (wavFrame .pcm8 rate P) 22 2 = 1 ∧ memRead (wavFrame .pcm8 rate P) 24 4 = rate ∧
      memRead (wavFrame .pcm8 rate P) 28 4 = rate ∧ memRead (wavFrame .pcm8 rate P) 32 2 = 1 ∧
      memRead (wavFrame .pcm8 rate P) 34 2 = 8 ∧
      ((wavFrame .pcm8 rate P).drop 36).take 4 = [0x64, 0x61, 0x74, 0x61] ∧
      memRead (wavFrame .pcm8 rate P) 40 4 = P.length ∧ (wavFrame .pcm8 rate P).drop 44 = P) ∧
    (38 + P.length < 2 ^ 32 →
      (wavFrame .alaw8 rate P).take 4 = [0x52, 0x49, 0x46, 0x46] ∧ memRead (wavFrame .alaw8 rate P) 4 4 = 38 + P.length ∧
      ((wavFrame .alaw8 rate P).drop 8).take 4 = [0x57, 0x41, 0x56, 0x45] ∧
      ((wavFrame .alaw8 rate P).drop 12).take 4 = [0x66, 0x6D, 0x74, 0x20] ∧
      memRead (wavFrame .alaw8 rate P) 16 4 = 18 ∧ memRead (wavFrame .alaw8 rate P) 20 2 = 6 ∧
      memRead (wavFrame .alaw8 rate P) 22 2 = 1 ∧ memRead (wavFrame .alaw8 rate P) 24 4 = rate ∧
      memRead (wavFrame .alaw8 rate P) 28 4 = rate ∧ memRead (wavFrame .alaw8 rate P) 32 2 = 1 ∧
      memRead (wavFrame .alaw8 rate P) 34 2 = 8 ∧ memRead (wavFrame .alaw8 rate P) 36 2 = 0 ∧
      ((wavFrame .alaw8 rate P).drop 38).take 4 = [0x64, 0x61, 0x74, 0x61] ∧
      memRead (wavFrame .alaw8 rate P) 42 4 = P.length ∧ (wavFrame .alaw8 rate P).drop 46 = P)

/-- R151: a frame is the header of its payload's length followed by the payload. R160: its length, and its RIFF chunk size 8
below it; the source's scenario gives 2046 bytes and a field of 2038. -/
def Obligations.FrameLengthIsHeaderPlusPayload : Prop :=
  (∀ (f : Format) (rate : Nat) (P : List Byte),
    wavFrame f rate P = wavHeader f rate P.length ++ P ∧
    (wavFrame f rate P).length = (descOf f).headerLen + P.length ∧
    ((descOf f).tail + P.length < 2 ^ 32 → memRead (wavFrame f rate P) 4 4 + 8 = (wavFrame f rate P).length)) ∧
  (∀ (rate : Nat) (P : List Byte),
    (wavFrame .pcm8 rate P).length = 44 + P.length ∧ (wavFrame .alaw8 rate P).length = 46 + P.length) ∧
  ∀ (rate : Nat) (P : List Byte), P.length = 2000 →
    (wavFrame .alaw8 rate P).length = 2046 ∧ memRead (wavFrame .alaw8 rate P) 4 4 = 2038

/-- R144 to R150: every field of the header that HDR emits and every frame begins with, for a rate and a length the block accepts.
The tags stand as `tag4` gives them (R132). -/
def Obligations.HeaderHasTheFieldsOfItsRules : Prop :=
  ∀ rate len : Nat, rate < 2 ^ 32 →
    (36 + len < 2 ^ 32 →
      (wavHeader .pcm8 rate len).length = 44 ∧
      (wavHeader .pcm8 rate len).take 4 = tag4 .riff ∧ memRead (wavHeader .pcm8 rate len) 4 4 = 36 + len ∧
      ((wavHeader .pcm8 rate len).drop 8).take 4 = tag4 .wave ∧ ((wavHeader .pcm8 rate len).drop 12).take 4 = tag4 .fmt ∧
      memRead (wavHeader .pcm8 rate len) 16 4 = 16 ∧ memRead (wavHeader .pcm8 rate len) 20 2 = 1 ∧
      memRead (wavHeader .pcm8 rate len) 22 2 = 1 ∧ memRead (wavHeader .pcm8 rate len) 24 4 = rate ∧
      memRead (wavHeader .pcm8 rate len) 28 4 = rate ∧ memRead (wavHeader .pcm8 rate len) 32 2 = 1 ∧
      memRead (wavHeader .pcm8 rate len) 34 2 = 8 ∧ ((wavHeader .pcm8 rate len).drop 36).take 4 = tag4 .data ∧
      memRead (wavHeader .pcm8 rate len) 40 4 = len) ∧
    (38 + len < 2 ^ 32 →
      (wavHeader .alaw8 rate len).length = 46 ∧
      (wavHeader .alaw8 rate len).take 4 = tag4 .riff ∧ memRead (wavHeader .alaw8 rate len) 4 4 = 38 + len ∧
      ((wavHeader .alaw8 rate len).drop 8).take 4 = tag4 .wave ∧ ((wavHeader .alaw8 rate len).drop 12).take 4 = tag4 .fmt ∧
      memRead (wavHeader .alaw8 rate len) 16 4 = 18 ∧ memRead (wavHeader .alaw8 rate len) 20 2 = 6 ∧
      memRead (wavHeader .alaw8 rate len) 22 2 = 1 ∧ memRead (wavHeader .alaw8 rate len) 24 4 = rate ∧
      memRead (wavHeader .alaw8 rate len) 28 4 = rate ∧ memRead (wavHeader .alaw8 rate len) 32 2 = 1 ∧
      memRead (wavHeader .alaw8 rate len) 34 2 = 8 ∧ memRead (wavHeader .alaw8 rate len) 36 2 = 0 ∧
      ((wavHeader .alaw8 rate len).drop 38).take 4 = tag4 .data ∧ memRead (wavHeader .alaw8 rate len) 42 4 = len)

-- The frame commands ---------------------------------------------------------------------------------------------

/-- R155, R156: HDR.PCM8 and HDR.ALAW8 complete with the header of RATE and LEN. Whatever STRICT_CONFIG is, that is so for
every rate and every length up to the limit, except 0 under STRICT_CONFIG. -/
def Obligations.HdrCommandsEmitTheHeader : Prop :=
  ∀ s : State, s.ip + 3 ≤ s.IN.length →
    (Config.strictConfig = true → s.IN.getD (s.ip + 1) 0 ≠ 0 ∧ s.IN.getD (s.ip + 2) 0 ≠ 0) →
    ((s.IN.getD (s.ip + 2) 0).toNat ≤ 0xFFFFFFFF - 36 →
      exec .hdrPcm8 s = .next { s with
        ip := s.ip + 3
        OUT := s.OUT ++ wavHeader .pcm8 (s.IN.getD (s.ip + 1) 0).toNat (s.IN.getD (s.ip + 2) 0).toNat }) ∧
    ((s.IN.getD (s.ip + 2) 0).toNat ≤ 0xFFFFFFFF - 38 →
      exec .hdrAlaw8 s = .next { s with
        ip := s.ip + 3
        OUT := s.OUT ++ wavHeader .alaw8 (s.IN.getD (s.ip + 1) 0).toNat (s.IN.getD (s.ip + 2) 0).toNat })

/-- R157, R158: FRAME.PCM8 and FRAME.ALAW8 complete with the frame of the payload bytes, in order, when every payload word is
a byte. -/
def Obligations.FrameCommandsEmitTheFrame : Prop :=
  ∀ (s : State) (len : Nat), len = (s.IN.getD (s.ip + 2) 0).toNat → s.ip + 3 + len ≤ s.IN.length →
    (Config.strictConfig = true → s.IN.getD (s.ip + 1) 0 ≠ 0 ∧ len ≠ 0) →
    (∀ i < len, (s.IN.getD (s.ip + (3 + i)) 0).toNat ≤ 0xFF) →
    (len ≤ 0xFFFFFFFF - 36 →
      exec .framePcm8 s = .next { s with
        ip := s.ip + 3 + len
        OUT := s.OUT ++ wavFrame .pcm8 (s.IN.getD (s.ip + 1) 0).toNat
          ((List.range len).map fun i => (s.IN.getD (s.ip + (3 + i)) 0).extractLsb' 0 8) }) ∧
    (len ≤ 0xFFFFFFFF - 38 →
      exec .frameAlaw8 s = .next { s with
        ip := s.ip + 3 + len
        OUT := s.OUT ++ wavFrame .alaw8 (s.IN.getD (s.ip + 1) 0).toNat
          ((List.range len).map fun i => (s.IN.getD (s.ip + (3 + i)) 0).extractLsb' 0 8) })

/-- R159: FRAMEA completes with the ALAW8 frame of the encoded samples; every sample word is legal. -/
def Obligations.FrameaEmitsTheEncodedFrame : Prop :=
  ∀ (s : State) (len : Nat), len = (s.IN.getD (s.ip + 2) 0).toNat → s.ip + 3 + len ≤ s.IN.length →
    (Config.strictConfig = true → s.IN.getD (s.ip + 1) 0 ≠ 0 ∧ len ≠ 0) → len ≤ 0xFFFFFFFF - 38 →
    exec .framea s = .next { s with
      ip := s.ip + 3 + len
      OUT := s.OUT ++ wavFrame .alaw8 (s.IN.getD (s.ip + 1) 0).toNat
        ((List.range len).map fun i => alawEncode (s.IN.getD (s.ip + (3 + i)) 0).toInt) }

/-- R206, R207, R208, R211: with the three operand words there, the checks come in the order RATE, LEN too large, LEN zero, and
each raises its code and changes nothing else, before any payload word is needed. -/
def Obligations.OperandChecksRaiseInOrder : Prop :=
  ∀ (s : State) (i : Instr) (f : Format) (rate len : Nat), formatOf i = some f → s.ip + 3 ≤ s.IN.length →
    rate = (s.IN.getD (s.ip + 1) 0).toNat → len = (s.IN.getD (s.ip + 2) 0).toNat →
    (len > 0xFFFFFFFF - (descOf f).tail → rate ≠ 0 → exec i s = .next { s with STATUS := 6 }) ∧
    (len > 0xFFFFFFFF - (descOf f).tail → rate = 0 →
      exec i s = .next { s with STATUS := if Config.strictConfig = true then 4 else 6 }) ∧
    (rate = 0 → len ≤ 0xFFFFFFFF - (descOf f).tail →
      ∃ t, exec i s = .next t ∧
        if Config.strictConfig = true then t = { s with STATUS := 4 } else t.err ≠ 4 ∨ s.err = 4) ∧
    (rate ≠ 0 → len = 0 →
      ∃ t, exec i s = .next t ∧ if Config.strictConfig = true then t = { s with STATUS := 5 } else t.STATUS = s.STATUS)

/-- R205: once all payload words are there and the earlier checks have passed, a word with a bit of [31:8] set raises
DATA_RANGE in FRAME.PCM8 and FRAME.ALAW8, and nothing is emitted; no command raises it anywhere else. -/
def Obligations.BadPayloadWordRaisesDataRange : Prop :=
  (∀ (s : State) (len j : Nat), len = (s.IN.getD (s.ip + 2) 0).toNat → s.ip + 3 + len ≤ s.IN.length →
    (Config.strictConfig = true → s.IN.getD (s.ip + 1) 0 ≠ 0) → j < len →
    (s.IN.getD (s.ip + (3 + j)) 0).extractLsb' 8 24 ≠ 0 →
    (len ≤ 0xFFFFFFFF - 36 → exec .framePcm8 s = .next { s with STATUS := 3 }) ∧
    (len ≤ 0xFFFFFFFF - 38 → exec .frameAlaw8 s = .next { s with STATUS := 3 })) ∧
  ∀ (s t : State) (i : Instr) (len : Nat), len = (s.IN.getD (s.ip + 2) 0).toNat → exec i s = .next t → t.err = 3 → s.err ≠ 3 →
    ((i = .framePcm8 ∧ len ≤ 0xFFFFFFFF - 36) ∨ (i = .frameAlaw8 ∧ len ≤ 0xFFFFFFFF - 38)) ∧ s.ip + 3 + len ≤ s.IN.length ∧
    (Config.strictConfig = true → s.IN.getD (s.ip + 1) 0 ≠ 0 ∧ len ≠ 0) ∧
    ∃ j < len, (s.IN.getD (s.ip + (3 + j)) 0).extractLsb' 8 24 ≠ 0

/-- R243: a command whose words are not all in IN changes nothing: ENC below Avail(2), ENCV until its N samples are there, a
frame command below Avail(3), and FRAME and FRAMEA again until their LEN items are in IN, once the checks of RATE and LEN have
passed. A hold answers the same state: log entry 1. -/
def Obligations.IncompleteCommandsHold : Prop :=
  (∀ s : State, s.IN.length < s.ip + 2 → exec .enc s = .next s ∧ exec .encv s = .next s) ∧
  (∀ s : State, s.IN.length < s.ip + 2 + (s.IN.getD (s.ip + 1) 0).toNat → exec .encv s = .next s) ∧
  (∀ (s : State) (i : Instr) (f : Format), formatOf i = some f → s.IN.length < s.ip + 3 → exec i s = .next s) ∧
  ∀ (s : State) (i : Instr) (f : Format) (len : Nat), formatOf i = some f → i ≠ .hdrPcm8 → i ≠ .hdrAlaw8 →
    len = (s.IN.getD (s.ip + 2) 0).toNat → s.IN.length < s.ip + 3 + len → len ≤ 0xFFFFFFFF - (descOf f).tail →
    (Config.strictConfig = true → s.IN.getD (s.ip + 1) 0 ≠ 0 ∧ len ≠ 0) → exec i s = .next s

/-- R153: without STRICT_CONFIG every rate is accepted and so is the length 0, whose frame is the bare header with data size 0;
with it the checks of R206 and R207 apply. -/
def Obligations.StrictnessDecidesOnZeros : Prop :=
  (∀ (s : State) (f : Format), s.avail 3 = true → s.len ≤ 0xFFFFFFFF - (descOf f).tail →
    hdrRule false f s = .completes (wavHeader f s.rate s.len) 3) ∧
  (∀ (s : State) (f : Format), s.avail 3 = true → s.len = 0 →
    frameRule false f s = .completes (wavHeader f s.rate 0) 3 ∧
    frameaRule false s = .completes (wavHeader .alaw8 s.rate 0) 3 ∧
    (wavHeader f s.rate 0).length = (descOf f).headerLen ∧
    memRead (wavHeader f s.rate 0) ((descOf f).headerLen - 4) 4 = 0) ∧
  (∀ (s : State) (f : Format), s.avail (3 + s.len) = true → s.len ≤ 0xFFFFFFFF - (descOf f).tail →
    (∀ w ∈ s.inWords 3 s.len, payloadBad w = false) → ∃ bs, frameRule false f s = .completes bs (3 + s.len)) ∧
  (∀ s : State, s.avail (3 + s.len) = true → s.len ≤ 0xFFFFFFFF - 38 →
    ∃ bs, frameaRule false s = .completes bs (3 + s.len)) ∧
  (∀ (s : State) (f : Format), s.avail 3 = true → s.rate = 0 →
    hdrRule true f s = .raises .configZeroRate ∧ frameRule true f s = .raises .configZeroRate ∧
    frameaRule true s = .raises .configZeroRate) ∧
  ∀ (s : State) (f : Format), s.avail 3 = true → s.rate ≠ 0 → s.len = 0 →
    hdrRule true f s = .raises .configEmptyPayload ∧ frameRule true f s = .raises .configEmptyPayload ∧
    frameaRule true s = .raises .configEmptyPayload

/-- R161 (and R152): whenever FRAME.PCM8, FRAME.ALAW8 or FRAMEA emits anything, what it emits is one frame of the RATE and the
payload it carries, and its fields read back as R161 lists them. -/
def Obligations.EmittedFramesReadBack : Prop :=
  ∀ (s t : State) (i : Instr) (f : Format), formatOf i = some f → i ≠ .hdrPcm8 → i ≠ .hdrAlaw8 →
    exec i s = .next t → t.OUT ≠ s.OUT →
    ∃ F P : List Byte, t.OUT = s.OUT ++ F ∧ F = wavFrame f (s.IN.getD (s.ip + 1) 0).toNat P ∧
      P.length = (s.IN.getD (s.ip + 2) 0).toNat ∧
      memRead F 4 4 = (descOf f).tail + P.length ∧
      memRead F 24 4 = (s.IN.getD (s.ip + 1) 0).toNat ∧ memRead F 28 4 = (s.IN.getD (s.ip + 1) 0).toNat ∧
      memRead F ((descOf f).headerLen - 4) 4 = P.length ∧
      memRead F 20 2 = (descOf f).code ∧ F.drop (descOf f).headerLen = P

-- The host's quantizers ------------------------------------------------------------------------------------------

/-- R172, R173: truncation and floor cannot be told apart after the clamp; the level is in [0, 255]; x = 0 gives 128, and a
half goes up, not to even. Exact arithmetic is a float format of the model: log entry 3. -/
def Obligations.Q8TruncationIsFloorAfterTheClamp : Prop :=
  (∀ y : Rat, q8Level y = max 0 (min 255 y.floor) ∧ 0 ≤ q8Level y ∧ q8Level y ≤ 255) ∧
  (∀ x : Rat, q8 exactFormat x = some (BitVec.ofInt 8 (max 0 (min 255 ((x + 1) * (255 / 2) + 1 / 2).floor)))) ∧
  (∀ x : Rat, x ≥ 1 → q8 exactFormat x = some 255) ∧ (∀ x : Rat, x ≤ -1 → q8 exactFormat x = some 0) ∧
  q8 exactFormat 0 = some 128 ∧ q8 exactFormat (-50 / 51) = some 3

/-- R175: q16's rounding is to the nearest integer, the three tie rules agree away from ties, and at a tie between k and k + 1
each goes its own way; at x = -0.5 and x = 0.5 the exact products and the codes are those of the rule. -/
def Obligations.Q16RoundsToTheNearestInteger : Prop :=
  (∀ (t : TieRule) (y : Rat), y - 1 / 2 ≤ (roundTies t y : Rat) ∧ (roundTies t y : Rat) ≤ y + 1 / 2) ∧
  (∀ (t u : TieRule) (y : Rat), y ≠ y.floor + 1 / 2 → roundTies t y = roundTies u y) ∧
  (∀ y : Rat, roundTies .halfUp y = (y + 1 / 2).floor) ∧
  (∀ k : Int,
    roundTies .halfEven ((k : Rat) + 1 / 2) % 2 = 0 ∧
    roundTies .halfAway ((k : Rat) + 1 / 2) = (if k ≥ 0 then k + 1 else k) ∧
    roundTies .halfUp ((k : Rat) + 1 / 2) = k + 1) ∧
  (∀ t : TieRule, roundTies t (1 / 2 * 32767) = 16384) ∧ alawEncode 16384 = 0x70 ∧
  roundTies .halfEven (-1 / 2 * 32767) = -16384 ∧ roundTies .halfAway (-1 / 2 * 32767) = -16384 ∧
  roundTies .halfUp (-1 / 2 * 32767) = -16383 ∧ alawEncode (-16384) = 0xF0 ∧ alawEncode (-16383) = 0xFF

/-- R174: q16 in exact arithmetic (a float format of the model, log entry 3) is the rounded product, and inputs in [-1, 1] give
values in [-32767, 32767]. -/
def Obligations.Q16MapsTheUnitRange : Prop :=
  ∀ (t : TieRule) (x : Rat), q16 exactFormat t x = some (roundTies t (x * 32767)) ∧
    (-1 ≤ x → x ≤ 1 → -32767 ≤ roundTies t (x * 32767) ∧ roundTies t (x * 32767) ≤ 32767)

/-- R177: both data paths end to end. From reset, the host appends the words of the path's command and the block steps once; OUT
is then the path's file and the run is final and clean. It holds for every tie rule and every float format in the form of log
entry 3; a sample with no value (log entry 4) has no command. -/
def Obligations.DataPathsProduceTheirFiles : Prop :=
  (∀ (F : FloatFormat) (rate : Word) (xs : List Rat) (c : Command), pcm8Command F rate xs = some c →
    xs.length ≤ 0xFFFFFFFF - 36 → (Config.strictConfig = true → rate ≠ 0 ∧ xs ≠ []) →
    ∃ t, step (State.reset.hostAppends (encode c)) = .next t ∧ pcm8File F rate.toNat xs = some t.OUT ∧
      t.finalClean = true) ∧
  ∀ (F : FloatFormat) (ties : TieRule) (rate : Word) (xs : List Rat) (c : Command),
    alaw8Command F ties rate xs = some c →
    xs.length ≤ 0xFFFFFFFF - 38 → (Config.strictConfig = true → rate ≠ 0 ∧ xs ≠ []) →
    ∃ t, step (State.reset.hostAppends (encode c)) = .next t ∧ alaw8File F ties rate.toNat xs = some t.OUT ∧
      t.finalClean = true
end

