-- ==== Sys2Proof/Tests/Slice0.lean ====
section
/-! SUPPORT. Small tests. Expected results are those of spec/95_test_vectors.md (V1 to V11, P1 to P8) or of the rule's own
example; command words are written out from spec/30_encoding.md R66 and R67. -/

namespace Sys2Proof.Tests

open Sys2Proof.Machine

/-- The reset state after the host appended these words. -/
def fed (ws : List Word) : State := { State.reset with IN := ws }

/-- OUT, ip and STATUS of a next state. -/
def seen : Host.Outcome State Fault Refusal → Option (List Byte × Nat × Word)
  | .next t => some (t.OUT, t.ip, t.STATUS)
  | _ => none

/-- OUT and ip after a rule's ending, from reset. -/
def ends (ws : List Word) (r : State → Ending) : List Byte × Nat × Word :=
  (((fed ws).finish (r (fed ws))).OUT, ((fed ws).finish (r (fed ws))).ip, ((fed ws).finish (r (fed ws))).STATUS)

-- Well-formedness: the one check, refused and accepted (R70).
theorem test_too_many_items : countFits (List.replicate (2 ^ 32) 0) = false := by
  rw [countFits, List.length_replicate]; decide
theorem test_wf_refuses_count (r : Word) : (Command.encv (List.replicate (2 ^ 32) 0)).wf = false ∧
    (Command.framePcm8 r (List.replicate (2 ^ 32) 0)).wf = false ∧
    (Command.frameAlaw8 r (List.replicate (2 ^ 32) 0)).wf = false ∧
    (Command.framea r (List.replicate (2 ^ 32) 0)).wf = false :=
  ⟨test_too_many_items, test_too_many_items, test_too_many_items, test_too_many_items⟩
theorem test_wf_accepts : (Command.encv [1, 2]).wf = true ∧ (Command.framePcm8 8000 []).wf = true := by decide

-- Decoding: OP in [31:24], RSV in [23:16], IMM16 in [15:0], each word bit by bit (R66, R67, R77).
theorem test_decode_enc : decode 0b00000001_00000000_0000000000000000 = .command .enc := by decide
theorem test_decode_encv : decode 0b00000010_00000000_0000000000000000 = .command .encv := by decide
theorem test_decode_hdr_pcm8 : decode 0b00010000_00000000_0000000000000001 = .command .hdrPcm8 := by decide
theorem test_decode_hdr_alaw8 : decode 0b00010000_00000000_0000000000000110 = .command .hdrAlaw8 := by decide
theorem test_decode_frame_pcm8 : decode 0b00010001_00000000_0000000000000001 = .command .framePcm8 := by decide
theorem test_decode_frame_alaw8 : decode 0b00010001_00000000_0000000000000110 = .command .frameAlaw8 := by decide
theorem test_decode_framea : decode 0b00010010_00000000_0000000000000000 = .command .framea := by decide
theorem test_decode_table : [0x01000000, 0x02000000, 0x10000001, 0x10000006, 0x11000001, 0x11000006, 0x12000000].map
    (Sys2Proof.decodeTableWord 32) = [some .enc, some .encv, some .hdrPcm8, some .hdrAlaw8, some .framePcm8, some .frameAlaw8,
      some .framea] := by decide
-- V9.
theorem test_decode_illegal : [0x00000000, 0x13000000, 0xFF000000, 0x01010000, 0x10800001, 0x01000001, 0x02000001,
    0x12000006].map decode = List.replicate 8 (.error .illegalCommand) := by decide
theorem test_decode_bad_format : [0x10000000, 0x10000002, 0x1000FFFF, 0x11000002].map decode =
    List.replicate 4 (.error .badFormat) := by decide

-- V1, V3: the encoder.
theorem test_alaw_positive : [0, 15, 16, 240, 253, 254, 255, 256, 272, 508, 509, 512, 1023, 1024, 4079, 8191, 8192, 16317,
    16318, 16384, 30720, 32634, 32635, 32767, 12345].map alawEncode =
    [0x00, 0x00, 0x01, 0x0F, 0x0F, 0x1F, 0x1F, 0x10, 0x11, 0x1F, 0x2F, 0x20, 0x3F, 0x30, 0x5F, 0x6F, 0x60, 0x6F, 0x7F,
      0x70, 0x7E, 0x7F, 0x7F, 0x7F, 0x68] := by decide
theorem test_alaw_negative : [-1, -15, -16, -254, -256, -32634, -32768, -40000, -1000, -12345, -100, -5000].map alawEncode =
    [0x80, 0x80, 0x81, 0x9F, 0x90, 0xFF, 0xFF, 0xFF, 0xAF, 0xE8, 0x86, 0xD3] := by decide

-- ENC (V1) and its hold (V10).
theorem test_enc_clamps : seen (step (fed [0x01000000, 0x80000000])) = some ([0xFF], 2, 0) := by decide
theorem test_enc_holds : seen (step (fed [0x01000000])) = some ([], 0, 0) := by decide

-- ENCV (V8) and its hold (V10).
theorem test_encv : seen (step (fed [0x02000000, 4, 0, 0xFE, 0xFF, 0x100])) = some ([0x00, 0x1F, 0x1F, 0x10], 6, 0) := by
  decide
theorem test_encv_holds : seen (step (fed [0x02000000, 3, 1, 2])) = some ([], 0, 0) := by decide

/-- HPCM(8000, 4) (V6). -/
def hpcm4 : List Byte := [0x52, 0x49, 0x46, 0x46, 0x28, 0x00, 0x00, 0x00, 0x57, 0x41, 0x56, 0x45, 0x66, 0x6D, 0x74, 0x20, 0x10,
  0x00, 0x00, 0x00, 0x01, 0x00, 0x01, 0x00, 0x40, 0x1F, 0x00, 0x00, 0x40, 0x1F, 0x00, 0x00, 0x01, 0x00, 0x08, 0x00, 0x64, 0x61,
  0x74, 0x61, 0x04, 0x00, 0x00, 0x00]

/-- HALAW(44100, 1) (V6). -/
def halaw1 : List Byte := [0x52, 0x49, 0x46, 0x46, 0x27, 0x00, 0x00, 0x00, 0x57, 0x41, 0x56, 0x45, 0x66, 0x6D, 0x74, 0x20, 0x12,
  0x00, 0x00, 0x00, 0x06, 0x00, 0x01, 0x00, 0x44, 0xAC, 0x00, 0x00, 0x44, 0xAC, 0x00, 0x00, 0x01, 0x00, 0x08, 0x00, 0x00, 0x00,
  0x64, 0x61, 0x74, 0x61, 0x01, 0x00, 0x00, 0x00]

-- HDR.PCM8 (V6) and its largest length plus one (V9).
theorem test_hdr_pcm8 : seen (step (fed [0x10000001, 8000, 4])) = some (hpcm4, 3, 0) := by decide
theorem test_hdr_pcm8_overflow : seen (step (fed [0x10000001, 8000, 0xFFFFFFDC])) = some ([], 0, 6) := by decide

-- HDR.ALAW8 (V6) and its largest length plus one (V9).
theorem test_hdr_alaw8 : seen (step (fed [0x10000006, 44100, 1])) = some (halaw1, 3, 0) := by decide
theorem test_hdr_alaw8_overflow : seen (step (fed [0x10000006, 8000, 0xFFFFFFDA])) = some ([], 0, 6) := by decide

-- FRAME.PCM8 (V7: the bytes after the header, and 47 in all) and DATA_RANGE (V9).
theorem test_frame_pcm8 : ((seen (step (fed [0x11000001, 8000, 3, 0x80, 0xFF, 0]))).map fun r =>
    (r.1.length, r.1.drop 40, r.2)) = some (47, [3, 0, 0, 0, 0x80, 0xFF, 0x00], 6, 0) := by decide
theorem test_frame_pcm8_data_range : seen (step (fed [0x11000001, 8000, 2, 0x100, 0x1FF])) = some ([], 0, 3) := by decide

-- FRAME.ALAW8 (V7) and P4's error after good output.
theorem test_frame_alaw8 : ((seen (step (fed [0x11000006, 8000, 1, 0xD5]))).map fun r => (r.1.length, r.1.drop 42, r.2)) =
    some (47, [1, 0, 0, 0, 0xD5], 4, 0) := by decide
theorem test_p4_second_step : seen (step
    { fed [0x01000000, 100, 0x11000006, 8000, 3, 0, 0x100, 0x1FF] with ip := 2, OUT := [0x06] }) = some ([0x06], 2, 3) := by
  decide

-- FRAMEA (V7, P1) and SIZE_OVERFLOW before the payload hold (V10).
theorem test_framea : ((seen (step (fed [0x12000000, 8000, 4, 0, 1000, 0xFFFFFC18, 32767]))).map fun r =>
    (r.1.take 8, r.1.drop 42, r.2)) =
    some ([0x52, 0x49, 0x46, 0x46, 0x2A, 0, 0, 0], [4, 0, 0, 0, 0x00, 0x2F, 0xAF, 0x7F], 7, 0) := by decide
theorem test_framea_overflow : seen (step (fed [0x12000000, 8000, 0xFFFFFFFF])) = some ([], 0, 6) := by decide

-- STRICT_CONFIG both ways (V9, P7): rate 0 has priority over length 0, and without it the bare header is written.
theorem test_strict : (ends [0x12000000, 0, 0] (frameaRule true)) = ([], 0, 4) ∧
    (ends [0x12000000, 8000, 0] (frameaRule true)) = ([], 0, 5) ∧
    (ends [0x10000001, 0, 5] (hdrRule true .pcm8)) = ([], 0, 4) := by decide
theorem test_not_strict : ((ends [0x12000000, 0, 0] (frameaRule false)).1.drop 24).take 8 = [0, 0, 0, 0, 0, 0, 0, 0] ∧
    (ends [0x12000000, 0, 0] (frameaRule false)).2 = (3, 0) := by decide

-- The step: halted (R212), idle (R200), and errors on the command word alone (V9).
theorem test_halted : seen (step { fed [0x01000000, 0] with STATUS := 2 }) = some ([], 0, 2) := by decide
theorem test_bad_format_alone : seen (step (fed [0x11000002])) = some ([], 0, 2) := by decide

-- The serializer (V5, R134).
theorem test_le : le32 0x12345678 = [0x78, 0x56, 0x34, 0x12] ∧ le16 0x1234 = [0x34, 0x12] := by decide
theorem test_mem_read : memRead (wavHeader .alaw8 8000 2000) 4 4 = 2038 ∧ memRead (wavHeader .alaw8 8000 2000) 42 4 = 2000 ∧
    memRead (wavHeader .alaw8 8000 2000) 20 2 = 6 := by decide

-- The quantizers (V11).
theorem test_q8 : [0, 1, -1, 1 / 2, -1 / 2, 1 / 4, 1 / 10, 3 / 2, -2].map (q8 exactFormat) =
    [128, 255, 0, 191, 64, 159, 140, 255, 0].map some := by decide +kernel
theorem test_q16_ties : [TieRule.halfEven, .halfAway, .halfUp].map (fun t =>
    [q16 exactFormat t (-1 / 2), q16 exactFormat t (3 / 2), q16 exactFormat t (-3 / 2)]) =
    [[some (-16384), some 49150, some (-49150)], [some (-16384), some 49151, some (-49151)],
      [some (-16383), some 49151, some (-49150)]] := by decide +kernel

-- Assembly (R79, R80): a line each, and a text with a comment.
theorem test_assemble_lines : assemble [.encv [-16, 17], .framePcm8 8000 [0x80], .word (-1)] =
    some [0x02000000, 2, 0xFFFFFFF0, 17, 0x11000001, 8000, 1, 0x80, 0xFFFFFFFF] := by decide
theorem test_assemble_refuses : assembleLine (.enc (2 ^ 31)) = none ∧ assembleLine (.framePcm8 8000 [256]) = none ∧
    assembleLine (.hdrPcm8 (-1) 0) = none := by decide
theorem test_assemble_text : assembleText ['E', 'N', 'C', ' ', '-', '1', ' ', ';', 'x', '\n', '\n', 'H', 'D', 'R', '.', 'P', 'C',
    'M', '8', ' ', '0', 'x', '1', 'F', '4', '0', ',', ' ', '4'] =
    some [0x01000000, 0xFFFFFFFF, 0x10000001, 8000, 4] := by decide

theorem test_read_numbers : readInt ['-', '0', 'x', 'F', 'f'] = some (-255) ∧ readInt ['1', '0'] = some 10 ∧
    readInt ['1', 'a'] = none ∧ readInt ['0', 'x'] = none ∧ readInt ['0', 'x', 'g'] = none ∧ readInt ['-'] = none := by decide

-- The host (R248): an append completes a waiting command (V10, P8), and a program comes to run from reset.
theorem test_append_completes : seen (step ((fed [0x01000000]).hostAppend 0x10)) = some ([0x01], 2, 0) := by decide
theorem test_first_instruction : seen (step (State.reset.withFetchWord 32 0x01000000)) = some ([0x00], 2, 0) := by decide
theorem test_first_command_appended : seen (step (State.reset.hostAppends [0x01000000, 0xFE, 0x02000000])) =
    some ([0x1F], 2, 0) := by decide
theorem test_placed_as_appended : State.reset.withFetchWord 32 0x10000001 = State.reset.hostAppends [0x10000001, 0, 0] := by
  decide

-- step runs each of the seven command words as the first instruction after reset, whatever STRICT_CONFIG is.
theorem test_seven_first_instructions (w : Nat) (_ : w ∈ [0x01000000, 0x02000000, 0x10000001, 0x10000006, 0x11000001,
    0x11000006, 0x12000000]) : ∃ t, step (State.reset.withFetchWord 32 w) = .next t :=
  ⟨_, step_eq (State.reset.withFetchWord 32 w)⟩

-- Witnesses: for every statement with hypotheses, values that meet all of them together.

/-- The operands of a frame command are not zero where STRICT_CONFIG asks that. -/
theorem test_witness_strict (a b : Word) (ha : a ≠ 0) (hb : b.toNat ≠ 0) :
    Config.strictConfig = true → a ≠ 0 ∧ b.toNat ≠ 0 := fun _ => ⟨ha, hb⟩

/-- The step to a state, from its ending. -/
theorem step_is {s t : State} (h : s.finish s.ending = t) : step s = .next t := h ▸ step_eq s

/-- A block halted by DATA_RANGE. -/
def halted : State := { fed [0x01000000, 0] with STATUS := 3, OUT := [0x06] }

-- OnlyResetLeavesTheErrorState, HaltedBlockStaysHalted, HostReadsAndWritesChangeNothing, StreamsOnlyGrowBetweenResets.
theorem test_witness_halted : halted.err ≠ 0 ∧ Event.block ≠ .host .reset ∧
    noReset [.host (.append 7), .block, .host .readStatus, .host (.writeStatus 0)] = true ∧ 0 < halted.OUT.length := by decide
-- ResetValuesAndFirstCommand (and its whole commands in test_witness_commands), StepRunsTheDecodedCommand, for the first, a format and the last word of the map.
theorem test_witness_decoded : decode 0x01000000 = .command .enc ∧ decode 0x11000006 = .command .frameAlaw8 ∧
    decode 0x12000000 = .command .framea ∧ (fed [0x12000000]).err = 0 ∧ (fed [0x12000000]).avail 1 = true ∧
    decode ((fed [0x12000000]).IN.getD (fed [0x12000000]).ip 0) = .command .framea := by decide
-- EveryStepKeepsTheStateInvariant, StepHoldsRaisesOrCompletes, ErrorsFollowThePriorityOrder: a hold, an error, a completion.
theorem test_witness_invariant : ((fed [0x01000000]).Inv ∧ (fed [0x01000000]).err = 0 ∧
      step (fed [0x01000000]) = .next (fed [0x01000000])) ∧
    ((fed [0x13000000]).Inv ∧ (fed [0x13000000]).err = 0 ∧ step (fed [0x13000000]) = .next { fed [0x13000000] with STATUS := 1 }) ∧
    ((fed [0x01000000, 0]).Inv ∧ (fed [0x01000000, 0]).err = 0 ∧
      step (fed [0x01000000, 0]) = .next { fed [0x01000000, 0] with ip := 2, OUT := [0] }) :=
  ⟨⟨⟨by decide, by decide⟩, by decide, step_is (by decide)⟩, ⟨⟨by decide, by decide⟩, by decide, step_is (by decide)⟩,
    ⟨by decide, by decide⟩, by decide, step_is (by decide)⟩
-- EveryReachableStateMeetsTheStateInvariant: a state with a consumed command.
theorem test_witness_reachable : Reachable { fed [0x01000000, 0] with ip := 2, OUT := [0] } :=
  ⟨[.host (.append 0x01000000), .block, .host (.append 0), .block], by decide⟩
-- ErrorCodeIsWrittenOnce.
theorem test_witness_error_written : step (fed [0x10000002]) = .next { fed [0x10000002] with STATUS := 2 } ∧
    State.err { fed [0x10000002] with STATUS := 2 } ≠ (fed [0x10000002]).err := ⟨step_is (by decide), by decide⟩
-- InstancesShareNothing.
theorem test_witness_instances : (1 : Nat) ≠ 0 ∧
    instanceEvent [State.reset, State.reset] 0 (.host (.append 5)) = [fed [5], State.reset] := by decide
-- EncodedCommandsReadBack, CommandsReadAreEncodings, StepDoesWhatTheCommandSays: no item, some items, no item list.
theorem test_witness_commands : (Command.encv []).wf = true ∧ (Command.framePcm8 0xFFFFFFFF [0x80, 0xFF]).wf = true ∧
    (Command.enc 0x80000000).wf = true ∧ decodeCommand [0x02000000, 1, 5, 9] = .complete (.encv [5]) [9] ∧
    decodeCommand [0x10000006, 8000, 0xFFFFFFFF] = .complete (.hdrAlaw8 8000 0xFFFFFFFF) [] ∧
    (fed [0x02000000, 1, 5, 9]).err = 0 ∧ (fed [0x02000000, 1, 5, 9]).pending = encode (.encv [5]) ++ [9] := by decide
-- AssembledLinesAreCommands, one line of each kind at the ends of its ranges.
theorem test_witness_lines : ((assembleLine (.enc (-2 ^ 31))).isSome ∧ (assembleLine (.encv [2 ^ 31 - 1])).isSome ∧
    (assembleLine (.hdrPcm8 0xFFFFFFFF 0)).isSome ∧ (assembleLine (.hdrAlaw8 0 0xFFFFFFFF)).isSome ∧
    (assembleLine (.framePcm8 0 [0, 255])).isSome ∧ (assembleLine (.frameAlaw8 8000 [])).isSome ∧
    (assembleLine (.framea 8000 [-1])).isSome) = true := by decide
theorem test_witness_not_word (s v : Int) : SourceLine.enc s ≠ .word v := by simp
-- IllegalCommandIsRaisedByTheCommandWordAlone: OP, RSV and IMM16 each alone, and a word that is legal.
theorem test_witness_illegal : (fed [0x03000000]).err = 0 ∧ (fed [0x03000000]).IN[(fed [0x03000000]).ip]? = some 0x03000000 ∧
    (0x03000000 : Word).extractLsb' 24 8 ∉ ([0x01, 0x02, 0x10, 0x11, 0x12] : List (BitVec 8)) ∧
    (0x01FF0000 : Word).extractLsb' 16 8 ≠ 0 ∧
    ((0x12000001 : Word).extractLsb' 24 8 ∈ ([0x01, 0x02, 0x12] : List (BitVec 8)) ∧ (0x12000001 : Word).extractLsb' 0 16 ≠ 0) ∧
    ¬ ((0x11000007 : Word).extractLsb' 24 8 ∉ ([0x01, 0x02, 0x10, 0x11, 0x12] : List (BitVec 8)) ∨
      (0x11000007 : Word).extractLsb' 16 8 ≠ 0 ∨ ((0x11000007 : Word).extractLsb' 24 8 ∈ ([0x01, 0x02, 0x12] : List (BitVec 8)) ∧
        (0x11000007 : Word).extractLsb' 0 16 ≠ 0)) := by decide
-- BadFormatIsRaisedByTheCommandWordAlone: formats 0 and 0xFFFF of OP 0x10 and 0x11, and a good format.
theorem test_witness_bad_format : ((0x10000000 : Word).extractLsb' 24 8 = 0x10 ∧ (0x10000000 : Word).extractLsb' 16 8 = 0 ∧
      (0x10000000 : Word).extractLsb' 0 16 ≠ 1 ∧ (0x10000000 : Word).extractLsb' 0 16 ≠ 6) ∧
    ((0x1100FFFF : Word).extractLsb' 24 8 = 0x11 ∧ (0x1100FFFF : Word).extractLsb' 16 8 = 0 ∧
      (0x1100FFFF : Word).extractLsb' 0 16 ≠ 1 ∧ (0x1100FFFF : Word).extractLsb' 0 16 ≠ 6) ∧
    (0x10000006 : Word).extractLsb' 0 16 = 6 := by decide
-- StepSeesOnlyThePendingWords: another history, the same pending words.
theorem test_witness_pending : (fed [0x01000000, 16]).pending =
      State.pending { fed [9, 9, 0x01000000, 16] with ip := 2, OUT := [7] } ∧
    step (fed [0x01000000, 16]) = .next { fed [0x01000000, 16] with ip := 2, OUT := [1] } ∧
    step { fed [9, 9, 0x01000000, 16] with ip := 2, OUT := [7] } =
      .next { fed [9, 9, 0x01000000, 16] with ip := 4, OUT := [7, 1] } :=
  ⟨by decide, step_is (by decide), step_is (by decide)⟩
-- AppendCommutesWithAnEnabledStep and EndOfRunIsOneOfThree: enabled, clean, faulted and waiting states.
theorem test_witness_ends : (fed [0x01000000, 16]).enabled = true ∧ (fed [0x01000000, 16]).ip ≤ (fed [0x01000000, 16]).IN.length ∧
    (fed []).enabled = false ∧ (fed []).finalClean = true ∧ halted.enabled = false ∧ halted.finalFaulted = true ∧
    (fed [0x02000000]).enabled = false ∧ (fed [0x02000000]).waiting = true := by decide
-- SettledStateDependsOnTheWordsAlone: the steps between the appends, or after them.
theorem test_witness_orders : noReset [.host (.append 0x01000000), .block, .host (.append 16), .block] = true ∧
    noReset [.host (.append 0x01000000), .host (.append 16), .block] = true ∧
    appendedWords [.host (.append 0x01000000), .block, .host (.append 16), .block] =
      appendedWords [.host (.append 0x01000000), .host (.append 16), .block] ∧
    (State.reset.events [.host (.append 0x01000000), .block, .host (.append 16), .block]).enabled = false ∧
    (State.reset.events [.host (.append 0x01000000), .host (.append 16), .block]).enabled = false := by decide
-- The encoder's statements: each range at its two ends.
theorem test_witness_magnitudes : (0 : Nat) < 32635 ∧ 32634 < 32635 ∧ 32635 ≤ 32767 ∧ (-32768 : Int) ≤ -32635 ∧
    (0 : Nat) ≤ 253 ∧ 254 ≤ 2 ^ (1 + 7) - 1 ∧ alawThresholds.getD 1 0 ≤ 254 ∧ alawThresholds.getD 7 0 ≤ 2 ^ (7 + 7) - 1 ∧
    alawSegment (2 ^ 8) = 1 ∧ alawSegment 32634 = 7 ∧ (15 : Int) ≤ 15 ∧ (1 : Int) ≠ 0 := by decide
theorem test_witness_preimages : 1 ≤ 1 ∧ 6 ≤ 6 ∧ 14 ≤ 14 ∧ 1 ≤ 32768 ∧ 32768 ≤ 32768 ∧ 0x7F ≤ 0x7F ∧ 0x80 ≤ 0x80 ∧ 0xFF ≤ 0xFF ∧
    (alawThresholds.getD 1 0 ≤ 254 ∧ 254 < 2 ^ (1 + 7)) ∧
    (2 ^ (6 + 7) + 15 * 2 ^ (6 + 3) ≤ 16317 ∧ 16317 < alawThresholds.getD (6 + 1) 0) := by decide
theorem test_witness_outside_bands : ∀ m ∈ [0, 253, 256, 32767], ∀ k, 1 ≤ k → k ≤ 7 →
    ¬ (alawThresholds.getD k 0 ≤ m ∧ m ≤ 2 ^ (k + 7) - 1) := by
  intro m hm k h1 h2
  interval_cases k <;> revert m <;> decide
-- EncEmitsOneCode, EncvEmitsOneCodePerSample: words missing, there, and a count of 0.
theorem test_witness_enc : (fed [0x01000000]).IN.length < (fed [0x01000000]).ip + 2 ∧
    (fed [0x01000000, 5]).ip + 2 ≤ (fed [0x01000000, 5]).IN.length ∧ (fed [0x02000000, 0]).IN.getD ((fed [0x02000000, 0]).ip + 1) 0 = 0 ∧
    (fed [0x02000000, 2, 5]).IN.length < (fed [0x02000000, 2, 5]).ip + 2 + ((fed [0x02000000, 2, 5]).IN.getD 1 0).toNat ∧
    (fed [0x02000000, 1, 5]).ip + 2 + ((fed [0x02000000, 1, 5]).IN.getD 1 0).toNat ≤ (fed [0x02000000, 1, 5]).IN.length := by decide
-- SerializerIsLittleEndian, MemWriteSetsItsOwnBytes, MemReadReadsBack: the largest values and the last place with room.
theorem test_witness_serializer : 0xFFFF ≤ 0xFFFF ∧ 0xFFFFFFFF ≤ 0xFFFFFFFF ∧
    3 + Width.w4.bytes ≤ ([1, 2, 3, 4, 5, 6, 7] : List Byte).length ∧ 0xFFFFFFFF < 2 ^ (8 * Width.w4.bytes) ∧
    3 + 4 ≤ ([1, 2, 3, 4, 5, 6, 7] : List Byte).length ∧ 3 ≤ 6 ∧ 6 < 3 + Width.w4.bytes ∧ ¬ (3 ≤ 2 ∧ 2 < 3 + Width.w4.bytes) := by
  decide
-- HeaderDoesNotDependOnTheNewBuffer, FrameHasTheLayoutOfTheMap, FrameLengthIsHeaderPlusPayload, HeaderHasTheFieldsOfItsRules: the
-- largest rate, and the largest length of each format.
theorem test_witness_frames : (List.replicate 46 (0xAA : Byte)).length = (descOf .alaw8).headerLen ∧ 0xFFFFFFFF < 2 ^ 32 ∧
    36 + ([0x80, 0xFF] : List Byte).length < 2 ^ 32 ∧ 38 + ([] : List Byte).length < 2 ^ 32 ∧
    36 + 0xFFFFFFDB < 2 ^ 32 ∧ 38 + 0xFFFFFFD9 < 2 ^ 32 := by decide
theorem test_witness_scenario : (List.replicate 2000 (0 : Byte)).length = 2000 := List.length_replicate
-- HdrCommandsEmitTheHeader, at the largest length of each format.
theorem test_witness_hdr : (fed [0x10000001, 8000, 0xFFFFFFDB]).ip + 3 ≤ (fed [0x10000001, 8000, 0xFFFFFFDB]).IN.length ∧
    ((fed [0x10000001, 8000, 0xFFFFFFDB]).IN.getD 2 0).toNat ≤ 0xFFFFFFFF - 36 ∧
    ((fed [0x10000006, 8000, 0xFFFFFFD9]).IN.getD 2 0).toNat ≤ 0xFFFFFFFF - 38 ∧
    (8000 : Word) ≠ 0 ∧ (0xFFFFFFDB : Word) ≠ 0 ∧ (0xFFFFFFD9 : Word) ≠ 0 := by decide

/-- A frame command with two payload or sample words, one of them the largest byte. -/
def twoItems (w : Word) : State := fed [w, 8000, 2, 0xFF, 0]

-- FrameCommandsEmitTheFrame, FrameaEmitsTheEncodedFrame, StrictnessDecidesOnZeros, DataPathsProduceTheirFiles.
theorem test_witness_frame (w : Word) : 2 = ((twoItems w).IN.getD ((twoItems w).ip + 2) 0).toNat ∧
    (twoItems w).ip + 3 + 2 ≤ (twoItems w).IN.length ∧
    (Config.strictConfig = true → (twoItems w).IN.getD ((twoItems w).ip + 1) 0 ≠ 0 ∧ 2 ≠ 0) ∧
    (∀ i < 2, ((twoItems w).IN.getD ((twoItems w).ip + (3 + i)) 0).toNat ≤ 0xFF) ∧ 2 ≤ 0xFFFFFFFF - 38 :=
  ⟨rfl, by show 0 + 3 + 2 ≤ 5; decide, fun _ => ⟨by show (8000 : Word) ≠ 0; decide, by decide⟩, fun i hi => by
    interval_cases i
    · show (0xFF : Word).toNat ≤ 0xFF; decide
    · show (0 : Word).toNat ≤ 0xFF; decide, by decide⟩
-- OperandChecksRaiseInOrder: too long with a rate and without, rate 0 with the longest LEN, and LEN 0.
theorem test_witness_checks : formatOf .framePcm8 = some .pcm8 ∧ formatOf .framea = some .alaw8 ∧
    (fed [0x12000000, 8000, 0xFFFFFFDA]).ip + 3 ≤ (fed [0x12000000, 8000, 0xFFFFFFDA]).IN.length ∧
    ((fed [0x12000000, 8000, 0xFFFFFFDA]).IN.getD 1 0).toNat ≠ 0 ∧ ((fed [0x12000000, 0, 0xFFFFFFDA]).IN.getD 1 0).toNat = 0 ∧
    ((fed [0x12000000, 0, 0xFFFFFFDA]).IN.getD 2 0).toNat > 0xFFFFFFFF - (descOf .alaw8).tail ∧
    ((fed [0x12000000, 0, 0xFFFFFFD9]).IN.getD 2 0).toNat ≤ 0xFFFFFFFF - (descOf .alaw8).tail ∧
    ((fed [0x12000000, 8000, 0]).IN.getD 1 0).toNat ≠ 0 ∧ ((fed [0x12000000, 8000, 0]).IN.getD 2 0).toNat = 0 := by decide
-- BadPayloadWordRaisesDataRange: the second of two payload words is no byte.
theorem test_witness_bad_payload : 2 = ((fed [0x11000001, 8000, 2, 0xFF, 0x100]).IN.getD 2 0).toNat ∧
    (fed [0x11000001, 8000, 2, 0xFF, 0x100]).ip + 3 + 2 ≤ (fed [0x11000001, 8000, 2, 0xFF, 0x100]).IN.length ∧
    (fed [0x11000001, 8000, 2, 0xFF, 0x100]).IN.getD 1 0 ≠ 0 ∧
    ((fed [0x11000001, 8000, 2, 0xFF, 0x100]).IN.getD (0 + (3 + 1)) 0).extractLsb' 8 24 ≠ 0 ∧ 1 < 2 := by decide
-- IncompleteFrameCommandsHold: below Avail(3), and one payload word short.
theorem test_witness_hold : (fed [0x12000000, 8000]).IN.length < (fed [0x12000000, 8000]).ip + 3 ∧
    (fed [0x11000006, 8000, 2, 0]).IN.length < (fed [0x11000006, 8000, 2, 0]).ip + 3 + 2 ∧
    2 = ((fed [0x11000006, 8000, 2, 0]).IN.getD 2 0).toNat ∧ Instr.frameAlaw8 ≠ .hdrPcm8 ∧ Instr.frameAlaw8 ≠ .hdrAlaw8 ∧
    (2 : Nat) ≤ 0xFFFFFFFF - (descOf .alaw8).tail ∧ (8000 : Word) ≠ 0 := by decide
-- StrictnessDecidesOnZeros: the clauses' states.
theorem test_witness_zeros : (fed [0x10000001, 0, 0xFFFFFFDB]).avail 3 = true ∧ (fed [0x10000001, 0, 0xFFFFFFDB]).rate = 0 ∧
    (fed [0x10000001, 0, 0xFFFFFFDB]).len ≤ 0xFFFFFFFF - (descOf .pcm8).tail ∧ (fed [0x12000000, 8000, 0]).avail 3 = true ∧
    (fed [0x12000000, 8000, 0]).rate ≠ 0 ∧ (fed [0x12000000, 8000, 0]).len = 0 ∧ (twoItems 0x11000001).avail (3 + 2) = true ∧
    (twoItems 0x11000001).len = 2 ∧ ((twoItems 0x11000001).inWords 3 2).all (fun w => payloadBad w = false) = true := by decide
-- EmittedFramesReadBack: FRAMEA emits, whatever STRICT_CONFIG is.
theorem test_witness_emits : ∃ t, exec .framea (twoItems 0x12000000) = .next t ∧ t.OUT ≠ (twoItems 0x12000000).OUT ∧
    formatOf .framea = some .alaw8 ∧ Instr.framea ≠ .hdrPcm8 ∧ Instr.framea ≠ .hdrAlaw8 := by
  refine ⟨_, rfl, ?_, by decide, by decide, by decide⟩
  show ((twoItems 0x12000000).finish (frameaRule Config.strictConfig (twoItems 0x12000000))).OUT ≠ []
  generalize Config.strictConfig = b
  revert b; decide
-- The quantizers: the ends of the unit range, a value away from a tie, and both data paths.
theorem test_witness_quantizers : (1 : Rat) ≥ 1 ∧ (-1 : Rat) ≤ -1 ∧ (-1 : Rat) ≤ 1 ∧ (1 / 4 : Rat) ≠ (1 / 4 : Rat).floor + 1 / 2 ∧
    pcm8Command exactFormat 8000 [0, 1] = some (.framePcm8 8000 [128, 255]) ∧
    alaw8Command exactFormat .halfEven 8000 [-1 / 2] = some (.framea 8000 [0xFFFFC000]) := by decide +kernel

-- ErrorsFollowThePriorityOrder, second clause: below Avail(3), and one payload word short with no error yet.
theorem test_witness_holds_again : decode 0x12000000 = .command .framea ∧ (fed [0x12000000, 8000]).avail 1 = true ∧
    (fed [0x12000000, 8000]).avail 3 = false ∧ (fed [0x11000006, 8000, 2, 0]).err = 0 ∧
    (fed [0x11000006, 8000, 2, 0]).firstError = 0 ∧
    (fed [0x11000006, 8000, 2, 0]).avail (3 + ((fed [0x11000006, 8000, 2, 0]).IN.getD 2 0).toNat) = false := by
  unfold State.firstError
  generalize Config.strictConfig = b
  revert b; decide
-- BadPayloadWordRaisesDataRange, second clause, and CommandsChangeNothingElse where STATUS changes.
theorem test_witness_data_range : ∃ t, exec .framePcm8 (fed [0x11000001, 8000, 2, 0xFF, 0x100]) = .next t ∧ t.err = 3 ∧
    (fed [0x11000001, 8000, 2, 0xFF, 0x100]).err ≠ 3 ∧ t.STATUS ≠ (fed [0x11000001, 8000, 2, 0xFF, 0x100]).STATUS := by
  refine ⟨_, exec_eq _ _, ?_⟩
  unfold ruleOf
  generalize Config.strictConfig = b
  revert b; decide

end Sys2Proof.Tests
end

section
/-! SUPPORT. What the block's step does where the pending words begin with a whole command, whatever follows them
(spec/30_encoding.md R69, 60_exceptions.md R200), and the state that the host's appends leave (70_reset_and_hazards.md
R248). The first obligation on reset (10_state.md R33) is assembled from them. -/

namespace Sys2Proof

/-- The command word of every instruction decodes to it (R67). -/
theorem decode_commandWord (i : Instr) : decode (commandWord i) = .command i := by
  cases i with
  | enc => exact Laws.WordDecodes.enc.1
  | encv => exact Laws.WordDecodes.encv.1
  | hdrPcm8 => exact Laws.WordDecodes.hdrPcm8.1
  | hdrAlaw8 => exact Laws.WordDecodes.hdrAlaw8.1
  | framePcm8 => exact Laws.WordDecodes.framePcm8.1
  | frameAlaw8 => exact Laws.WordDecodes.frameAlaw8.1
  | framea => exact Laws.WordDecodes.framea.1

theorem countFits_iff (xs : List Word) : countFits xs = true ↔ xs.length < 2 ^ 32 := decide_eq_true_iff

/-- The count word of items that fit reads back as their number (R70). -/
theorem uint_countWord {xs : List Word} (h : countFits xs = true) : Machine.uint (countWord xs) = xs.length :=
  countWord_toNat ((countFits_iff xs).mp h)

end Sys2Proof

namespace Sys2Proof.Machine

-- The host's appends ----------------------------------------------------------------------------------------------

/-- Appending words one by one puts them at the end of IN and touches nothing else (R25, R248). -/
theorem State.hostAppends_eq (s : State) (ws : List Word) : s.hostAppends ws = { s with IN := s.IN ++ ws } := by
  induction ws generalizing s with
  | nil => simp [State.hostAppends]
  | cons w ws ih => simp [State.hostAppends, ih, State.hostAppend]

@[simp] theorem State.hostAppends_IN (s : State) (ws : List Word) : (s.hostAppends ws).IN = s.IN ++ ws := by
  rw [State.hostAppends_eq]

@[simp] theorem State.hostAppends_ip (s : State) (ws : List Word) : (s.hostAppends ws).ip = s.ip := by
  rw [State.hostAppends_eq]

@[simp] theorem State.hostAppends_OUT (s : State) (ws : List Word) : (s.hostAppends ws).OUT = s.OUT := by
  rw [State.hostAppends_eq]

@[simp] theorem State.hostAppends_STATUS (s : State) (ws : List Word) : (s.hostAppends ws).STATUS = s.STATUS := by
  rw [State.hostAppends_eq]

@[simp] theorem State.hostAppends_err (s : State) (ws : List Word) : (s.hostAppends ws).err = s.err := by
  simp [State.err]

/-- After reset the pending words are those the host has appended (R25, R33). -/
theorem State.reset_hostAppends_pending (ws : List Word) : (State.reset.hostAppends ws).pending = ws := by
  simp [State.pending, State.reset]

-- Reading the pending words ---------------------------------------------------------------------------------------

section Reads
variable {s : State} {w a b : Word} {xs rest : List Word}

/-- Items that stand in the pending words after `pre` are available and are what `inWords` reads. -/
theorem State.items_of_pending {pre : List Word} (hpre : 1 ≤ pre.length) (h : s.pending = pre ++ (xs ++ rest)) :
    s.avail (pre.length + xs.length) = true ∧ s.inWords pre.length xs.length = xs := by
  constructor
  · rw [s.avail_iff_pending (by omega), h]
    simp
  · simp [s.inWords_eq, h]

/-- A running block whose first pending word is a command word runs that command (R200). -/
theorem step_of_pending {i : Instr} (h0 : s.err = 0) (h : s.pending = w :: rest) (hd : decode w = .command i) :
    step s = exec i s := by
  have ha : s.avail 1 = true := by simp [s.avail_iff_pending le_rfl, h]
  have hw : s.inWord 0 = w := by simp [s.inWord_eq, h]
  simp [step, State.fetch, h0, ha, hw, hd]

-- The rules on a whole command ------------------------------------------------------------------------------------

/-- ENC with its sample word there (R111). -/
theorem encRule_of_pending (h : s.pending = w :: a :: rest) : encRule s = .completes [encodeSample a] 2 := by
  have ha : s.avail 2 = true := by simp [s.avail_iff_pending (show 1 ≤ 2 by omega), h]
  have hw : s.inWord 1 = a := by simp [s.inWord_eq, h]
  simp [encRule, ha, hw]

/-- ENCV with all its samples there (R112). -/
theorem encvRule_of_pending (hx : countFits xs = true) (h : s.pending = w :: countWord xs :: (xs ++ rest)) :
    encvRule s = .completes (xs.map encodeSample) (2 + xs.length) := by
  obtain ⟨ha, hi⟩ := s.items_of_pending (pre := [w, countWord xs]) (by simp) h
  have hc : s.count = xs.length := by simp [State.count, s.inWord_eq, h, uint_countWord hx]
  have h2 : s.avail 2 = true := s.avail_mono (by simp) ha
  simp only [List.length_cons, List.length_nil] at ha hi
  simp [encvRule, hc, h2, ha, hi]

/-- RATE and LEN of a frame command are its first two argument words (R69). -/
theorem State.rate_len_of_pending (h : s.pending = w :: a :: b :: rest) : s.rate = uint a ∧ s.len = uint b := by
  simp [State.rate, State.len, s.inWord_eq, h]

/-- The checks of a frame command see its operands RATE and LEN (R69, R211). -/
theorem checkedRule_of_pending (strict : Bool) (f : Format) (e : Ending) (h : s.pending = w :: a :: b :: rest) :
    checkedRule strict f s e = checkedEnding strict f (uint a) (uint b) e := by
  have ha : s.avail 3 = true := by simp [s.avail_iff_pending (show 1 ≤ 3 by omega), h]
  obtain ⟨hr, hl⟩ := State.rate_len_of_pending h
  rw [checkedRule_of_avail e ha, hr, hl]

/-- HDR with its operands there (R155, R156). -/
theorem hdrRule_of_pending (strict : Bool) (f : Format) (h : s.pending = w :: a :: b :: rest) :
    hdrRule strict f s = checkedEnding strict f (uint a) (uint b) (.completes (wavHeader f (uint a) (uint b)) 3) := by
  obtain ⟨hr, hl⟩ := State.rate_len_of_pending h
  rw [hdrRule, checkedRule_of_pending strict f _ h, hr, hl]

/-- RATE, LEN and the items of a FRAME or FRAMEA that is whole in the pending words (R69, R70). -/
theorem State.frame_operands_of_pending (hx : countFits xs = true)
    (h : s.pending = w :: a :: countWord xs :: (xs ++ rest)) :
    s.rate = uint a ∧ s.len = xs.length ∧ s.avail (3 + xs.length) = true ∧ s.inWords 3 xs.length = xs := by
  obtain ⟨ha, hi⟩ := s.items_of_pending (pre := [w, a, countWord xs]) (by simp) h
  obtain ⟨hr, hl⟩ := State.rate_len_of_pending h
  exact ⟨hr, hl.trans (uint_countWord hx), ha, hi⟩

/-- FRAME with its whole payload there (R157, R158). -/
theorem frameRule_of_pending (strict : Bool) (f : Format) (hx : countFits xs = true)
    (h : s.pending = w :: a :: countWord xs :: (xs ++ rest)) :
    frameRule strict f s = checkedEnding strict f (uint a) xs.length (payloadEnding f (uint a) xs.length xs) := by
  obtain ⟨hr, hl, ha, hi⟩ := State.frame_operands_of_pending hx h
  rw [frameRule, checkedRule_of_pending strict f _ h, uint_countWord hx, hr, hl, if_pos ha, hi]

/-- FRAMEA with all its samples there (R159). -/
theorem frameaRule_of_pending (strict : Bool) (hx : countFits xs = true)
    (h : s.pending = w :: a :: countWord xs :: (xs ++ rest)) :
    frameaRule strict s = checkedEnding strict .alaw8 (uint a) xs.length
      (.completes (wavFrame .alaw8 (uint a) (xs.map encodeSample)) (3 + xs.length)) := by
  obtain ⟨hr, hl, ha, hi⟩ := State.frame_operands_of_pending hx h
  rw [frameaRule, checkedRule_of_pending strict .alaw8 _ h, uint_countWord hx, hr, hl, if_pos ha, hi]

end Reads

/-- Where the pending words begin with a well-formed command, its rule ends as its arguments say (R69). -/
theorem ruleOf_of_pending {s : State} {c : Command} {rest : List Word} (hc : c.wf = true)
    (h : s.pending = encode c ++ rest) : ruleOf s c.instr = commandEnding Config.strictConfig c := by
  cases c with
  | enc x => exact encRule_of_pending h
  | encv xs => exact encvRule_of_pending hc h
  | hdrPcm8 r l | hdrAlaw8 r l => exact hdrRule_of_pending _ _ h
  | framePcm8 r xs | frameAlaw8 r xs => exact frameRule_of_pending _ _ hc h
  | framea r xs => exact frameaRule_of_pending _ hc h

/-- A running block whose pending words begin with a well-formed command does what the command says (R69, R200). -/
theorem step_of_pending_encode {s : State} {c : Command} {rest : List Word} (h0 : s.err = 0) (hc : c.wf = true)
    (h : s.pending = encode c ++ rest) : step s = .next (s.finish (commandEnding Config.strictConfig c)) :=
  calc step s
    _ = exec c.instr s := step_of_pending h0 h (decode_commandWord c.instr)
    _ = .next (s.finish (ruleOf s c.instr)) := exec_eq c.instr s
    _ = .next (s.finish (commandEnding Config.strictConfig c)) := by rw [ruleOf_of_pending hc h]

/-- After reset and any appends no error is recorded (R33). -/
theorem State.reset_hostAppends_err (ws : List Word) : (State.reset.hostAppends ws).err = 0 :=
  State.reset.hostAppends_err ws

/-- Settles O1: the fields of R33 are those of the reset state; after the appends the pending words are the appended ones, so
the step runs the command they begin with. -/
theorem resetValuesAndFirstCommand : Obligations.ResetValuesAndFirstCommand := by
  refine ⟨rfl, rfl, rfl, rfl, rfl, fun _ => rfl, rfl, ?_, ?_⟩
  · intro w ws i hd
    exact step_of_pending (State.reset_hostAppends_err _) (State.reset_hostAppends_pending _) hd
  · intro c rest hc
    exact step_of_pending_encode (State.reset_hostAppends_err _) hc (State.reset_hostAppends_pending _)

end Sys2Proof.Machine
end

section
/-! SUPPORT. The A-Law code of a sample by its magnitude: the segment as the number of thresholds met (spec/40_alaw_encoder.md
R106), the wrap bands and the rest of each segment (R107, R116), and the fields of the code (R60). The obligations on
alaw_encode are assembled from them. -/

namespace Sys2Proof.Machine

-- The clamp, the sign and the magnitude ---------------------------------------------------------------------------

theorem alawClamp_of_mem {v : Int} (h1 : -32768 ≤ v) (h2 : v ≤ 32767) : alawClamp v = v := by
  simp only [alawClamp, clamp]
  omega

theorem alawClamp_of_ge {v : Int} (h : 32767 ≤ v) : alawClamp v = 32767 := by
  simp only [alawClamp, clamp]
  omega

theorem alawClamp_of_le {v : Int} (h : v ≤ -32768) : alawClamp v = -32768 := by
  simp only [alawClamp, clamp]
  omega

/-- The code sees a sample through the clamp only (R100, R101). -/
theorem alawEncode_congr {v w : Int} (h : alawClamp v = alawClamp w) : alawEncode v = alawEncode w := by
  rw [alawEncode, alawEncode, h]

theorem alawSign_eq (s : Int) : alawSign s = if decide (s < 0) then 0x80 else 0 := by
  by_cases h : s < 0 <;> simp [alawSign, h]

theorem alawMag_cast (s : Int) : (alawMag s : Int) = if s < 0 then -s else s := by
  rw [alawMag, Int.toNat_of_nonneg]
  split_ifs <;> omega

/-- The code fits a byte, so alaw_encode is it unchanged (R100, R109). -/
theorem alawEncode_toNat_eq_alawCode (v : Int) :
    (alawEncode v).toNat = alawCode (alawSign (alawClamp v)) (alawMag (alawClamp v)) := by
  have hlt := alawUnsigned_lt (alawMag (alawClamp v))
  rw [alawEncode, BitVec.toNat_ofNat, Nat.mod_eq_of_lt]
  rw [alawSign_eq, alawCode_eq]
  split_ifs <;> omega

-- The code of each sign -------------------------------------------------------------------------------------------

theorem alawEncode_of_nonneg {v : Int} (h : 0 ≤ v) : (alawEncode v).toNat = alawUnsigned v.natAbs := by
  rw [alawEncode_toNat, if_neg (by omega), Nat.zero_add]

theorem alawEncode_of_neg {v : Int} (h : v < 0) : (alawEncode v).toNat = 128 + alawUnsigned v.natAbs := by
  rw [alawEncode_toNat, if_pos h]

theorem alawEncode_natCast (m : Nat) : (alawEncode (m : Int)).toNat = alawUnsigned m :=
  alawEncode_of_nonneg (Int.natCast_nonneg m)

theorem alawEncode_neg_natCast {m : Nat} (h : 1 ≤ m) : (alawEncode (-(m : Int))).toNat = 128 + alawUnsigned m := by
  rw [alawEncode_of_neg (by omega), Int.natAbs_neg, Int.natAbs_natCast]

-- The segment -----------------------------------------------------------------------------------------------------

/-- The segment reaches k exactly where the threshold of k is met (R106). -/
theorem le_alawSegment_iff {k m : Nat} (hk : k ≤ 7) : k ≤ alawSegment m ↔ alawThresholds.getD k 0 ≤ m := by
  rw [alawSegment_eq]
  interval_cases k <;> simp only [alawThresholds, List.getD_cons_zero, List.getD_cons_succ] <;> split_ifs <;> omega

theorem alawThreshold_alawSegment_le (m : Nat) : alawThresholds.getD (alawSegment m) 0 ≤ m :=
  (le_alawSegment_iff (alawSegment_le m)).mp le_rfl

theorem alawSegment_mono {x y : Nat} (h : x ≤ y) : alawSegment x ≤ alawSegment y :=
  (le_alawSegment_iff (alawSegment_le x)).mpr ((alawThreshold_alawSegment_le x).trans h)

/-- The ranges of the table of R106. -/
theorem alawSegment_ranges (m : Nat) :
    (alawSegment m = 0 ↔ m ≤ 253) ∧ (alawSegment m = 1 ↔ 254 ≤ m ∧ m ≤ 508) ∧
    (alawSegment m = 2 ↔ 509 ≤ m ∧ m ≤ 1018) ∧ (alawSegment m = 3 ↔ 1019 ≤ m ∧ m ≤ 2038) ∧
    (alawSegment m = 4 ↔ 2039 ≤ m ∧ m ≤ 4078) ∧ (alawSegment m = 5 ↔ 4079 ≤ m ∧ m ≤ 8158) ∧
    (alawSegment m = 6 ↔ 8159 ≤ m ∧ m ≤ 16317) ∧ (alawSegment m = 7 ↔ 16318 ≤ m) := by
  have h7 := alawSegment_le m
  have t1 : 1 ≤ alawSegment m ↔ 254 ≤ m := le_alawSegment_iff (by omega)
  have t2 : 2 ≤ alawSegment m ↔ 509 ≤ m := le_alawSegment_iff (by omega)
  have t3 : 3 ≤ alawSegment m ↔ 1019 ≤ m := le_alawSegment_iff (by omega)
  have t4 : 4 ≤ alawSegment m ↔ 2039 ≤ m := le_alawSegment_iff (by omega)
  have t5 : 5 ≤ alawSegment m ↔ 4079 ≤ m := le_alawSegment_iff (by omega)
  have t6 : 6 ≤ alawSegment m ↔ 8159 ≤ m := le_alawSegment_iff (by omega)
  have t7 : 7 ≤ alawSegment m ↔ 16318 ≤ m := le_alawSegment_iff (by omega)
  omega

/-- Below 32768 a magnitude of segment k has at most k + 8 bits. -/
theorem lt_two_pow_alawSegment {m : Nat} (h : m ≤ 32767) : m < 2 ^ (alawSegment m + 8) := by
  rw [alawSegment_eq]
  split_ifs <;> omega

-- The code as segment and mantissa --------------------------------------------------------------------------------

theorem alawUnsigned_of_cutoff {m : Nat} (h : 32635 ≤ m) : alawUnsigned m = 127 := if_pos h

/-- From the cutoff to 32767 the segment is 7 and the mantissa 15 without the cutoff's help (R104). -/
theorem alawSegment_alawMantissa_of_cutoff {m : Nat} (h1 : 32635 ≤ m) (h2 : m ≤ 32767) :
    alawSegment m = 7 ∧ alawMantissa 7 m = 15 := by
  have h7 : alawSegment m = 7 := by
    rw [alawSegment_eq, if_pos (by omega)]
  refine ⟨h7, ?_⟩
  rw [alawMantissa_eq, if_pos (by omega)]
  omega

/-- Up to 32767 the code is its segment and its mantissa, on both sides of the cutoff (R104, R109). -/
theorem alawUnsigned_eq_of_le {m : Nat} (h : m ≤ 32767) :
    alawUnsigned m = alawSegment m * 16 + alawMantissa (alawSegment m) m := by
  by_cases hc : 32635 ≤ m
  · obtain ⟨hs, hm⟩ := alawSegment_alawMantissa_of_cutoff hc h
    rw [alawUnsigned_of_cutoff hc, hs, hm]
  · exact if_neg hc

/-- SEG, bits [6:4] of the code (R60). -/
theorem alawEncode_seg {m : Nat} (h : m ≤ 32767) : ((alawEncode (m : Int)).extractLsb' 4 3).toNat = alawSegment m := by
  have hs := alawSegment_le m
  have hm := alawMantissa_lt m
  rw [BitVec.extractLsb'_toNat, alawEncode_natCast, alawUnsigned_eq_of_le h, Nat.shiftRight_eq_div_pow]
  omega

/-- MANT, bits [3:0] of the code (R60). -/
theorem alawEncode_mant {m : Nat} (h : m ≤ 32767) :
    ((alawEncode (m : Int)).extractLsb' 0 4).toNat = alawMantissa (alawSegment m) m := by
  have hm := alawMantissa_lt m
  rw [BitVec.extractLsb'_toNat, alawEncode_natCast, alawUnsigned_eq_of_le h, Nat.shiftRight_zero]
  omega

/-- In segment 0 the code is the magnitude over 16 (R108). -/
theorem alawUnsigned_of_le_253 {m : Nat} (h : m ≤ 253) : alawUnsigned m = m / 16 := by
  rw [alawUnsigned_eq_of_le (by omega), (alawSegment_ranges m).1.mpr h, alawMantissa_eq, if_neg (by omega)]
  omega

-- The wrap bands --------------------------------------------------------------------------------------------------

/-- The magnitude is in wrap band k: at or above the threshold of segment k and below 2^(k+7) (R116). -/
structure WrapBand (k m : Nat) : Prop where
  one_le : 1 ≤ k
  le_seven : k ≤ 7
  threshold_le : alawThresholds.getD k 0 ≤ m
  lt_two_pow : m < 2 ^ (k + 7)

/-- The threshold of segment k lies less than a mantissa step below 2^(k+7) and above 2^(k+6) (R105, R116). -/
theorem alawThreshold_bounds : ∀ k ≤ 7, 1 ≤ k →
    15 * 2 ^ (k + 3) ≤ alawThresholds.getD k 0 ∧ alawThresholds.getD k 0 < 2 ^ (k + 7) ∧
    2 ^ (k + 6) < alawThresholds.getD k 0 := by decide

theorem sixteen_mul_two_pow (k : Nat) : 2 ^ (k + 7) = 16 * 2 ^ (k + 3) := by ring

theorem thirtytwo_mul_two_pow (k : Nat) : 2 ^ (k + 8) = 32 * 2 ^ (k + 3) := by ring

section Bands
variable {k m : Nat}

/-- From the threshold of segment k to 2^(k+7) the segment is k. -/
theorem alawSegment_eq_of_le_two_pow (hk : k ≤ 7) (hlo : alawThresholds.getD k 0 ≤ m) (hhi : m ≤ 2 ^ (k + 7)) :
    alawSegment m = k := by
  have hge : k ≤ alawSegment m := (le_alawSegment_iff hk).mpr hlo
  have hle : alawSegment m ≤ k := by
    by_contra hlt
    have hk1 : k + 1 ≤ 7 := by have := alawSegment_le m; omega
    have hnext : alawThresholds.getD (k + 1) 0 ≤ m := (le_alawSegment_iff hk1).mp (by omega)
    obtain ⟨-, -, hbound⟩ := alawThreshold_bounds (k + 1) hk1 (by omega)
    exact absurd (hnext.trans hhi) (not_le.mpr hbound)
  omega

theorem WrapBand.segment_eq (h : WrapBand k m) : alawSegment m = k :=
  alawSegment_eq_of_le_two_pow h.le_seven h.threshold_le h.lt_two_pow.le

/-- In band k the shifted magnitude is 15 (R116). -/
theorem WrapBand.div_eq (h : WrapBand k m) : m / 2 ^ (k + 3) = 15 := by
  have hlo := (alawThreshold_bounds k h.le_seven h.one_le).1.trans h.threshold_le
  have hhi := h.lt_two_pow
  rw [sixteen_mul_two_pow] at hhi
  exact Nat.div_eq_of_lt_le hlo hhi

theorem WrapBand.le_32767 (h : WrapBand k m) : m ≤ 32767 := by
  have h14 : 2 ^ (k + 7) ≤ 2 ^ 14 := Nat.pow_le_pow_right (by omega) (by have := h.le_seven; omega)
  have := h.lt_two_pow
  omega

/-- In band k the code is the top code of segment k (R116). -/
theorem WrapBand.unsigned_eq (h : WrapBand k m) : alawUnsigned m = k * 16 + 15 := by
  rw [alawUnsigned_eq_of_le h.le_32767, h.segment_eq, alawMantissa_eq, if_pos h.one_le, h.div_eq]

/-- From 2^(k+7) on the shifted magnitude is 16 to 31 and its low four bits are the mantissa (R107, R116). -/
theorem alawMantissa_of_two_pow_le (hk : 1 ≤ k) (hlo : 2 ^ (k + 7) ≤ m) (hhi : m < 2 ^ (k + 8)) :
    16 ≤ m / 2 ^ (k + 3) ∧ m / 2 ^ (k + 3) ≤ 31 ∧ alawMantissa k m = m / 2 ^ (k + 3) - 16 := by
  rw [sixteen_mul_two_pow] at hlo
  rw [thirtytwo_mul_two_pow] at hhi
  have h16 : 16 ≤ m / 2 ^ (k + 3) := (Nat.le_div_iff_mul_le (by positivity)).mpr hlo
  have h32 : m / 2 ^ (k + 3) < 32 := (Nat.div_lt_iff_lt_mul (by positivity)).mpr hhi
  refine ⟨h16, by omega, ?_⟩
  rw [alawMantissa_eq, if_pos hk]
  omega

/-- From 2^(k+7) on the code of segment k counts from its first code (R116). -/
theorem alawUnsigned_of_two_pow_le (hk : 1 ≤ k) (hs : alawSegment m = k) (hlo : 2 ^ (k + 7) ≤ m) (hhi : m ≤ 32767) :
    16 ≤ m / 2 ^ (k + 3) ∧ m / 2 ^ (k + 3) ≤ 31 ∧ alawUnsigned m = k * 16 + (m / 2 ^ (k + 3) - 16) := by
  have hlt := lt_two_pow_alawSegment hhi
  rw [hs] at hlt
  obtain ⟨h16, h31, hm⟩ := alawMantissa_of_two_pow_le hk hlo hlt
  exact ⟨h16, h31, by rw [alawUnsigned_eq_of_le hhi, hs, hm]⟩

/-- The code at 2^(k+7) is the lowest of segment k (R115). -/
theorem alawUnsigned_two_pow (h1 : 1 ≤ k) (h7 : k ≤ 7) : alawUnsigned (2 ^ (k + 7)) = k * 16 := by
  obtain ⟨-, hlt, -⟩ := alawThreshold_bounds k h7 h1
  have h14 : 2 ^ (k + 7) ≤ 2 ^ 14 := Nat.pow_le_pow_right (by omega) (by omega)
  obtain ⟨-, -, hu⟩ :=
    alawUnsigned_of_two_pow_le h1 (alawSegment_eq_of_le_two_pow h7 hlt.le le_rfl) le_rfl (by omega)
  rw [hu, sixteen_mul_two_pow, Nat.mul_div_cancel _ (by positivity), Nat.sub_self, Nat.add_zero]

/-- A magnitude of a segment k from 1 on that is in no band is at least 2^(k+7). -/
theorem two_pow_le_of_not_wrapBand (hk : 1 ≤ alawSegment m) (hb : ∀ j, ¬ WrapBand j m) :
    2 ^ (alawSegment m + 7) ≤ m := by
  by_contra hlt
  exact hb _ ⟨hk, alawSegment_le m, alawThreshold_alawSegment_le m, by omega⟩

end Bands

-- The order of the codes ------------------------------------------------------------------------------------------

section Order
variable {x y : Nat}

/-- A magnitude of a lower segment has a lower code (R115). -/
theorem alawUnsigned_lt_of_segment_lt (hx : x ≤ 32767) (hy : y ≤ 32767) (h : alawSegment x < alawSegment y) :
    alawUnsigned x < alawUnsigned y := by
  rw [alawUnsigned_eq_of_le hx, alawUnsigned_eq_of_le hy]
  have := alawMantissa_lt x
  omega

/-- Within one segment and outside its band the codes are in the order of the shifted magnitudes (R107, R108). -/
theorem alawUnsigned_le_of_segment_eq (h : x ≤ y) (hy : y ≤ 32767) (hs : alawSegment x = alawSegment y)
    (hbx : ∀ j, ¬ WrapBand j x) : alawUnsigned x ≤ alawUnsigned y := by
  obtain h0 | h1 := Nat.eq_zero_or_pos (alawSegment y)
  · have hy253 : y ≤ 253 := (alawSegment_ranges y).1.mp h0
    rw [alawUnsigned_of_le_253 hy253, alawUnsigned_of_le_253 (h.trans hy253)]
    exact Nat.div_le_div_right h
  · have hlo := two_pow_le_of_not_wrapBand (hs ▸ h1) hbx
    rw [hs] at hlo
    obtain ⟨-, -, hux⟩ := alawUnsigned_of_two_pow_le h1 hs hlo (h.trans hy)
    obtain ⟨-, -, huy⟩ := alawUnsigned_of_two_pow_le h1 rfl (hlo.trans h) hy
    have := Nat.div_le_div_right (c := 2 ^ (alawSegment y + 3)) h
    omega

/-- From a magnitude outside the bands upwards the code does not descend (R115). -/
theorem alawUnsigned_le_of_not_wrapBand (h : x ≤ y) (hy : y ≤ 32767) (hbx : ∀ j, ¬ WrapBand j x) :
    alawUnsigned x ≤ alawUnsigned y := by
  obtain hlt | heq := (alawSegment_mono h).lt_or_eq
  · exact (alawUnsigned_lt_of_segment_lt (h.trans hy) hy hlt).le
  · exact alawUnsigned_le_of_segment_eq h hy heq hbx

/-- The code descends after m exactly where m is the last magnitude of a band (R115). -/
theorem alawUnsigned_descends_iff {m : Nat} (h : m ≤ 32766) :
    alawUnsigned (m + 1) < alawUnsigned m ↔ ∃ k, 1 ≤ k ∧ k ≤ 7 ∧ m = 2 ^ (k + 7) - 1 := by
  constructor
  · intro hd
    obtain ⟨k, hk⟩ : ∃ k, WrapBand k m := by
      by_contra hb
      have := alawUnsigned_le_of_not_wrapBand (y := m + 1) (by omega) (by omega) (not_exists.mp hb)
      omega
    refine ⟨k, hk.one_le, hk.le_seven, ?_⟩
    by_contra hne
    have hk' : WrapBand k (m + 1) :=
      ⟨hk.one_le, hk.le_seven, hk.threshold_le.trans (Nat.le_succ m), by have := hk.lt_two_pow; omega⟩
    rw [hk.unsigned_eq, hk'.unsigned_eq] at hd
    exact lt_irrefl _ hd
  · rintro ⟨k, h1, h7, rfl⟩
    obtain ⟨-, hlt, -⟩ := alawThreshold_bounds k h7 h1
    have hband : WrapBand k (2 ^ (k + 7) - 1) := ⟨h1, h7, by omega, by omega⟩
    rw [Nat.sub_add_cancel (by omega), hband.unsigned_eq, alawUnsigned_two_pow h1 h7]
    omega

end Order

end Sys2Proof.Machine
end

section
/-! SUPPORT. The obligations on alaw_encode and on ENC and ENCV (spec/40_alaw_encoder.md), and what the two commands' rules
do with the words they find (R111, R112). -/

namespace Sys2Proof.Machine

-- alaw_encode -----------------------------------------------------------------------------------------------------

/-- Settles O29: the clamped sample, its sign and its magnitude are those of the model's own steps; the segment is the largest
threshold index met by `le_alawSegment_iff`. -/
theorem alawEncodeFollowsTheSteps : Obligations.AlawEncodeFollowsTheSteps := by
  intro v
  refine ⟨alawClamp v, rfl, alawSign (alawClamp v), alawMag (alawClamp v), rfl, alawMag_cast _, ?_, ?_⟩
  · intro h
    rw [alawEncode_toNat_eq_alawCode]
    exact if_pos h
  · intro h
    refine ⟨alawSegment (alawMag (alawClamp v)), alawSegment_le _, alawThreshold_alawSegment_le _,
      fun k hk => (le_alawSegment_iff hk).mpr, ?_⟩
    rw [alawEncode_toNat_eq_alawCode]
    exact if_neg (not_le.mpr h)

/-- Settles O30: the clamp by cases, and the code sees a sample through it only. -/
theorem outOfRangeSamplesSaturate : Obligations.OutOfRangeSamplesSaturate := by
  refine ⟨fun v => alawClamp_of_mem, ?_, ?_, alawClamp_of_ge (by omega), alawClamp_of_le (by omega),
    alawClamp_of_ge (by omega)⟩
  · intro v h
    exact ⟨alawClamp_of_ge h, alawEncode_congr ((alawClamp_of_ge h).trans (alawClamp_of_ge le_rfl).symm)⟩
  · intro v h
    exact ⟨alawClamp_of_le h, alawEncode_congr ((alawClamp_of_le h).trans (alawClamp_of_le le_rfl).symm)⟩

theorem alawEncode_of_ge_cutoff {v : Int} (h : 32635 ≤ v) : alawEncode v = 0x7F := by
  apply BitVec.eq_of_toNat_eq
  rw [alawEncode_of_nonneg (by omega), alawUnsigned_of_cutoff (by omega)]
  rfl

theorem alawEncode_of_le_neg_cutoff {v : Int} (h : v ≤ -32635) : alawEncode v = 0xFF := by
  apply BitVec.eq_of_toNat_eq
  rw [alawEncode_of_neg (by omega), alawUnsigned_of_cutoff (by omega)]
  rfl

/-- Settles O31: from the cutoff to 32767 the segment path finds segment 7 and mantissa 15 too; at 32768 the mantissa wraps. -/
theorem cutoffGivesTheTopCode : Obligations.CutoffGivesTheTopCode := by
  refine ⟨fun v => alawEncode_of_ge_cutoff, fun v => alawEncode_of_le_neg_cutoff, ?_,
    alawEncode_of_le_neg_cutoff (by omega), by decide⟩
  intro m h1 h2
  obtain ⟨hs, hm⟩ := alawSegment_alawMantissa_of_cutoff h1 h2
  have hpath : ∀ neg : Bool, alawSegmentPath (if neg then 0x80 else 0) m = (if neg then 128 else 0) + 127 := by
    intro neg
    rw [alawSegmentPath_eq, hs, hm]
  exact ⟨hpath false, hpath true⟩

/-- The mantissa with the shift of the table of R106. -/
theorem alawMantissa_eq_shift {seg : Nat} (h : seg ≤ 7) (m : Nat) : alawMantissa seg m =
    if seg = 0 then m >>> 4 else (m >>> ([4, 4, 5, 6, 7, 8, 9, 10].getD seg 0)) % 16 := by
  have hshift : ∀ k ≤ 7, 1 ≤ k → [4, 4, 5, 6, 7, 8, 9, 10].getD k 0 = k + 3 := by decide
  rw [alawMantissa_eq]
  obtain rfl | h1 := Nat.eq_zero_or_pos seg
  · simp [Nat.shiftRight_eq_div_pow]
  · rw [if_pos (show seg ≥ 1 from h1), if_neg (by omega), hshift seg h h1, Nat.shiftRight_eq_div_pow]

/-- Settles O32: the segment by `le_alawSegment_iff`, the two fields of the code, and the table's ranges. -/
theorem segmentsCoverTheirRanges : Obligations.SegmentsCoverTheirRanges := by
  intro m h
  have hm : m ≤ 32767 := by omega
  exact ⟨alawSegment_le m, alawThreshold_alawSegment_le m, fun k hk => (le_alawSegment_iff hk).mpr, alawEncode_seg hm,
    (alawEncode_mant hm).trans (alawMantissa_eq_shift (alawSegment_le m) m), alawSegment_ranges m⟩

/-- Settles O33: the thresholds put 0 to 253 in segment 0, where the mantissa is the magnitude over 16. -/
theorem segmentZeroMantissaIsUnmasked : Obligations.SegmentZeroMantissaIsUnmasked := by
  refine ⟨?_, by decide, by decide⟩
  intro m h
  refine ⟨(alawSegment_ranges m).1.mpr h, alawMantissa_eq 0 m, by omega, ?_⟩
  rw [alawEncode_natCast, alawUnsigned_of_le_253 h]

/-- Settles O34: the code without its sign is below 128, and the sign adds 128. -/
theorem codeRangeFollowsTheSign : Obligations.CodeRangeFollowsTheSign := by
  intro v
  have hlt := alawUnsigned_lt v.natAbs
  obtain hv | hv := lt_or_ge v 0
  · have := alawEncode_of_neg hv
    omega
  · have := alawEncode_of_nonneg hv
    omega

/-- Flipping bit 7 of a byte adds 128 to it or takes it away. -/
theorem byte_xor_sign : ∀ b : Byte, (b ^^^ 0x80).toNat = (b.toNat + 128) % 256 := by decide

/-- Settles O35: an integer and its negation have one magnitude and, away from 0, different signs. -/
theorem negationFlipsTheSignBit : Obligations.NegationFlipsTheSignBit := by
  refine ⟨?_, by decide⟩
  intro x hx
  apply BitVec.eq_of_toNat_eq
  rw [byte_xor_sign, alawEncode_toNat, alawEncode_toNat, Int.natAbs_neg]
  have hlt := alawUnsigned_lt x.natAbs
  obtain hneg | hpos := lt_or_gt_of_ne hx
  · rw [if_neg (by omega), if_pos hneg]
    omega
  · rw [if_pos (by omega), if_neg (by omega)]
    omega

/-- The bands of R115 and R116, written with the last magnitude. -/
theorem wrapBand_iff {k m : Nat} :
    WrapBand k m ↔ 1 ≤ k ∧ k ≤ 7 ∧ alawThresholds.getD k 0 ≤ m ∧ m ≤ 2 ^ (k + 7) - 1 := by
  have hpos : 0 < 2 ^ (k + 7) := by positivity
  exact ⟨fun ⟨h1, h7, hlo, hhi⟩ => ⟨h1, h7, hlo, by omega⟩, fun ⟨h1, h7, hlo, hhi⟩ => ⟨h1, h7, hlo, by omega⟩⟩

/-- Settles O36: the descents by `alawUnsigned_descends_iff`, and no descent from a magnitude outside the bands. -/
theorem sevenDescentsAndNoOthers : Obligations.SevenDescentsAndNoOthers := by
  refine ⟨?_, by decide, by decide, ?_, ?_, ?_⟩
  · intro m h
    rw [alawEncode_natCast, alawEncode_natCast]
    exact alawUnsigned_descends_iff h
  · intro x y h hy
    rw [alawEncode_seg (h.trans hy), alawEncode_seg hy]
    exact alawSegment_mono h
  · intro x y h hy hbx _
    rw [alawEncode_natCast, alawEncode_natCast]
    refine alawUnsigned_le_of_not_wrapBand h hy fun k hk => ?_
    obtain ⟨h1, h7, hin⟩ := wrapBand_iff.mp hk
    exact hbx k h1 h7 hin
  · intro m h
    rw [alawEncode_neg_natCast h, alawEncode_natCast]

/-- The sizes of the bands (R116). -/
theorem wrapBand_size : ∀ k ≤ 7, 1 ≤ k →
    2 ^ (k + 7) - alawThresholds.getD k 0 = [0, 2, 3, 5, 9, 17, 33, 66].getD k 0 := by decide

/-- Settles O37: in a band the shifted magnitude is 15, and above it 16 to 31. -/
theorem wrapBandsHaveTheTopCode : Obligations.WrapBandsHaveTheTopCode := by
  intro k h1 h7
  refine ⟨wrapBand_size k h7 h1, ?_, ?_⟩
  · intro m hlo hhi
    have hband : WrapBand k m := wrapBand_iff.mpr ⟨h1, h7, hlo, hhi⟩
    have hm : 1 ≤ m := Nat.pos_of_ne_zero fun h0 => by simpa [h0] using hband.div_eq
    rw [alawEncode_natCast, alawEncode_neg_natCast hm, hband.unsigned_eq, Nat.shiftRight_eq_div_pow]
    exact ⟨hband.div_eq, rfl, rfl⟩
  · intro m hlo hhi hs
    rw [alawEncode_natCast, Nat.shiftRight_eq_div_pow]
    exact alawUnsigned_of_two_pow_le h1 hs hlo (by omega)

/-- Settles O39: 0 to 15 lie in segment 0 and are less than 16. -/
theorem zeroEncodesToZero : Obligations.ZeroEncodesToZero := by
  have hzero : ∀ v : Int, 0 ≤ v → v ≤ 15 → alawEncode v = 0x00 := by
    intro v h0 h15
    apply BitVec.eq_of_toNat_eq
    rw [alawEncode_of_nonneg h0, alawUnsigned_of_le_253 (by omega), Nat.div_eq_of_lt (by omega)]
    rfl
  exact ⟨hzero 0 le_rfl (by omega), hzero⟩

-- ENC and ENCV ----------------------------------------------------------------------------------------------------

section Rules
variable {s : State}

/-- ENC below Avail(2) holds (R111, R243). -/
theorem encRule_of_not_avail (h : s.IN.length < s.ip + 2) : encRule s = .holds :=
  if_neg (by rw [State.avail_iff]; omega)

/-- ENC at Avail(2) completes with one code (R111). -/
theorem encRule_of_avail (h : s.avail 2 = true) : encRule s = .completes [encodeSample (s.inWord 1)] 2 := if_pos h

/-- ENCV waits for its last sample only: that its count word is there follows (R112). -/
theorem encvRule_eq (s : State) : encvRule s =
    if s.avail (2 + s.count) then .completes ((s.inWords 2 s.count).map encodeSample) (2 + s.count) else .holds := by
  by_cases h : s.avail (2 + s.count) = true
  · simp [encvRule, h, s.avail_mono (Nat.le_add_right 2 _) h]
  · simp [encvRule, h]

/-- ENCV below Avail(2 + N) holds (R112, R243). -/
theorem encvRule_of_not_avail (h : s.IN.length < s.ip + 2 + s.count) : encvRule s = .holds := by
  rw [encvRule_eq, if_neg (by rw [State.avail_iff]; omega)]

/-- ENCV at Avail(2 + N) completes with the codes of its samples in order (R112). -/
theorem encvRule_of_avail (h : s.avail (2 + s.count) = true) : encvRule s =
    .completes ((List.range s.count).map fun i => encodeSample (s.inWord (2 + i))) (2 + s.count) := by
  rw [encvRule_eq, if_pos h, s.inWords_eq_map h, List.map_map]
  rfl

end Rules

/-- Settles O40: the two ends of the rule of ENC, and the step of a whole ENC command for the example. -/
theorem encEmitsOneCode : Obligations.EncEmitsOneCode := by
  refine ⟨decode_commandWord .enc, fun s => encRule_of_not_avail, ?_, by decide, by decide, by decide, by decide, ?_⟩
  · intro s h
    rw [exec_eq, show ruleOf s .enc = _ from encRule_of_avail ((s.avail_iff 2).mpr h)]
    rfl
  · rw [step_of_pending_encode (c := .enc 0x000000FE) (rest := []) rfl rfl rfl]
    exact congrArg Host.Outcome.next (by decide)

/-- ENCV with all its N samples there emits N codes and advances by 2 + N (R112). -/
theorem exec_encv_of_avail {s : State} (h : s.ip + 2 + s.count ≤ s.IN.length) : exec .encv s = .next { s with
    ip := s.ip + 2 + s.count
    OUT := s.OUT ++ (List.range s.count).map fun i => encodeSample (s.inWord (2 + i)) } := by
  have ha : s.avail (2 + s.count) = true := (s.avail_iff _).mpr (by omega)
  rw [exec_eq, show ruleOf s .encv = _ from encvRule_of_avail ha, Nat.add_assoc]
  rfl

/-- Settles O41: the two ends of the rule of ENCV; with N = 0 the same rule emits nothing. -/
theorem encvEmitsOneCodePerSample : Obligations.EncvEmitsOneCodePerSample := by
  refine ⟨decode_commandWord .encv, ?_, fun s => encvRule_of_not_avail, fun s => exec_encv_of_avail, ?_, ?_⟩
  · intro s h
    exact encvRule_of_not_avail (by omega)
  · intro s h hn
    have h0 : s.count = 0 := congrArg BitVec.toNat hn
    rw [exec_encv_of_avail (by omega), h0]
    simp
  · rw [step_of_pending_encode (c := .encv [0xFFFFFFF0, 0x00000011]) (rest := []) rfl rfl rfl]
    exact congrArg Host.Outcome.next (by decide)

end Sys2Proof.Machine
end

section
/-! SUPPORT. The serializer and the frame map (spec/41_le_serializer.md R130 to R134, 20_memory.md R46): a byte of a write,
the bytes at an address as one number, and each field of a header whatever bytes follow it. -/

namespace Sys2Proof.Machine

-- The bytes of a number ------------------------------------------------------------------------------------------

/-- The n-byte form of v is its bytes 0 to n - 1 in order (R130, R131). -/
theorem leBytes_eq_map (n : Width) (v : Nat) : leBytes n v = (List.range n.bytes).map (byteOf v) := by cases n <;> rfl

theorem leBytes_getElem? {n : Width} {i : Nat} (h : i < n.bytes) (v : Nat) : (leBytes n v)[i]? = some (byteOf v i) := by
  simp [leBytes_eq_map, h]

/-- Settles O42: the bytes of `byteOf` by division; the top byte of a number that fits needs no remainder. -/
theorem serializerIsLittleEndian : Obligations.SerializerIsLittleEndian := by
  refine ⟨fun v h => ?_, fun v h => ?_, by decide, by decide⟩
  · have top : v / 256 % 256 = v / 256 := Nat.mod_eq_of_lt (by omega)
    simp [le16, top]
  · have top : v / 16777216 % 256 = v / 16777216 := Nat.mod_eq_of_lt (by omega)
    simp [le32, top]

/-- Settles O43: both writes are `writeBytes`, which says what each byte of the buffer becomes. -/
theorem memWriteSetsItsOwnBytes : Obligations.MemWriteSetsItsOwnBytes := by
  constructor
  · intro F addr n v j h
    have get : (memWrite F addr n v)[j]? = if addr ≤ j ∧ j < addr + n.bytes then (leBytes n v)[j - addr]? else F[j]? := by
      simpa [memWrite] using writeBytes_getElem? F addr (leBytes n v) (by simpa using h) j
    refine ⟨writeBytes_length .., fun h1 h2 => ?_, fun hout => by rw [get, if_neg hout]⟩
    rw [List.getD_eq_getElem?_getD, get, if_pos ⟨h1, h2⟩, leBytes_getElem? (by omega), Option.getD_some, byteOf_toNat,
      Nat.pow_mul]
  · intro F addr t j h
    have get : (memWriteTag F addr t)[j]? = if addr ≤ j ∧ j < addr + 4 then (tag4 t)[j - addr]? else F[j]? := by
      simpa [memWriteTag] using writeBytes_getElem? F addr (tag4 t) (by simpa using h) j
    exact ⟨writeBytes_length .., fun h1 h2 => by rw [get, if_pos ⟨h1, h2⟩], fun hout => by rw [get, if_neg hout]⟩

-- The bytes at an address ----------------------------------------------------------------------------------------

/-- MemRead is the sum of the bytes by weight (R134), in closed form. -/
theorem memRead_eq_sum (F : List Byte) (addr n : Nat) :
    memRead F addr n = ((List.range n).map fun i => (F.getD (addr + i) 0).toNat * 2 ^ (8 * i)).sum := by
  induction n generalizing addr with
  | zero => rfl
  | succ n ih =>
    have shift : ∀ i, 2 ^ 8 * ((F.getD (addr + 1 + i) 0).toNat * 2 ^ (8 * i)) =
        (F.getD (addr + (i + 1)) 0).toNat * 2 ^ (8 * (i + 1)) := fun i => by
      rw [Nat.add_right_comm addr 1 i, ← Nat.add_assoc addr i 1]
      ring
    rw [memRead, ih, ← List.sum_map_mul_left, List.map_congr_left fun i _ => shift i, List.range_succ_eq_map,
      List.map_cons, List.map_map, List.sum_cons]
    simp [Function.comp_def]

theorem memRead_drop (F : List Byte) (a b n : Nat) : memRead (F.drop a) b n = memRead F (a + b) n := by
  simp [memRead_eq_sum, List.getD_eq_getElem?_getD, Nat.add_assoc]

/-- The n bytes of v, read back as one number, keep v's remainder by 2^(8n) (R134). -/
theorem memRead_leBytes_append (n : Width) (v : Nat) (R : List Byte) :
    memRead (leBytes n v ++ R) 0 n.bytes = v % 2 ^ (8 * n.bytes) := by
  cases n <;> simp [leBytes, le16, le32, memRead, Width.bytes] <;> omega

/-- Where the bytes of v stand at an address, MemRead gives v. -/
theorem memRead_of_take_drop_eq {F : List Byte} {a v : Nat} (n : Width) (hF : (F.drop a).take n.bytes = leBytes n v)
    (hv : v < 2 ^ (8 * n.bytes)) : memRead F a n.bytes = v := by
  have split : F.drop a = leBytes n v ++ (F.drop a).drop n.bytes := by rw [← hF, List.take_append_drop]
  rw [← Nat.add_zero a, ← memRead_drop, split, memRead_leBytes_append, Nat.mod_eq_of_lt hv]

/-- A write with room leaves its bytes at its address (R133). -/
theorem writeBytes_take_drop {F bs : List Byte} {a : Nat} (h : a + bs.length ≤ F.length) :
    ((writeBytes F a bs).drop a).take bs.length = bs := by
  have hlen : a = (F.take a).length := (List.length_take_of_le (by omega)).symm
  have split := writeBytes_next (R := F.drop a) (bs := bs) hlen (by rw [List.length_drop]; omega)
  rw [List.take_append_drop, List.append_assoc] at split
  rw [split, List.drop_left' hlen.symm, List.take_left]

/-- Settles O44: the closed sum, and the written bytes read as one number. -/
theorem memReadReadsBack : Obligations.MemReadReadsBack := by
  refine ⟨fun F addr n _ => memRead_eq_sum F addr n, fun F a n v h hv => memRead_of_take_drop_eq n ?_ hv⟩
  rw [← leBytes_length n v] at h ⊢
  exact writeBytes_take_drop h

-- The fields of a header, whatever bytes follow it ---------------------------------------------------------------

/-- The tags stand at their offsets (R145, R146, R150). -/
theorem wavHeader_append_tags (f : Format) (rate len : Nat) (R : List Byte) :
    (wavHeader f rate len ++ R).take 4 = tag4 .riff ∧ ((wavHeader f rate len ++ R).drop 8).take 4 = tag4 .wave ∧
    ((wavHeader f rate len ++ R).drop 12).take 4 = tag4 .fmt ∧
    ((wavHeader f rate len ++ R).drop ((descOf f).headerLen - 8)).take 4 = tag4 .data := by
  rw [wavHeader_eq]
  cases f <;> simp [headerBytes, descOf, tag4, le16, le32]

/-- The sizes that grow with the payload: the RIFF chunk size and the data chunk size (R145, R150). -/
theorem memRead_wavHeader_append_sizes (f : Format) (rate : Nat) {len : Nat} (R : List Byte)
    (hl : (descOf f).tail + len < 2 ^ 32) :
    memRead (wavHeader f rate len ++ R) 4 4 = (descOf f).tail + len ∧
    memRead (wavHeader f rate len ++ R) ((descOf f).headerLen - 4) 4 = len := by
  have hlen : len < 2 ^ 32 := by omega
  rw [wavHeader_eq]
  refine ⟨memRead_of_take_drop_eq .w4 ?_ hl, memRead_of_take_drop_eq .w4 ?_ hlen⟩ <;>
    cases f <;> simp [headerBytes, descOf, leBytes, tag4, le16, le32, Width.bytes]

/-- The format chunk's fields that both formats have (R140 to R142, R146 to R148). -/
theorem memRead_wavHeader_append_fmt (f : Format) {rate : Nat} (len : Nat) (R : List Byte) (hr : rate < 2 ^ 32) :
    memRead (wavHeader f rate len ++ R) 16 4 = (descOf f).fmtSize ∧
    memRead (wavHeader f rate len ++ R) 20 2 = (descOf f).code ∧
    memRead (wavHeader f rate len ++ R) 22 2 = wavChannels ∧ memRead (wavHeader f rate len ++ R) 24 4 = rate ∧
    memRead (wavHeader f rate len ++ R) 28 4 = rate ∧ memRead (wavHeader f rate len ++ R) 32 2 = wavBlockAlign ∧
    memRead (wavHeader f rate len ++ R) 34 2 = wavBitsPerSample := by
  have hsize : (descOf f).fmtSize < 2 ^ 32 := by cases f <;> decide
  have hcode : (descOf f).code < 2 ^ 16 := by cases f <;> decide
  rw [wavHeader_eq]
  refine ⟨memRead_of_take_drop_eq .w4 ?_ hsize, memRead_of_take_drop_eq .w2 ?_ hcode,
    memRead_of_take_drop_eq .w2 ?_ (by decide), memRead_of_take_drop_eq .w4 ?_ hr, memRead_of_take_drop_eq .w4 ?_ hr,
    memRead_of_take_drop_eq .w2 ?_ (by decide), memRead_of_take_drop_eq .w2 ?_ (by decide)⟩ <;>
    simp [headerBytes, leBytes, tag4, le16, le32, Width.bytes]

/-- The A-Law header's field of extra format bytes is 0 (R149). -/
theorem memRead_wavHeader_alaw8_append_extra (rate len : Nat) (R : List Byte) :
    memRead (wavHeader .alaw8 rate len ++ R) 36 2 = 0 := by
  rw [wavHeader_eq]
  refine memRead_of_take_drop_eq .w2 ?_ (by decide)
  simp [headerBytes, descOf, leBytes, tag4, le16, le32, Width.bytes]

/-- The payload stands right after the header (R151). -/
theorem wavFrame_drop (f : Format) (rate : Nat) (P : List Byte) : (wavFrame f rate P).drop (descOf f).headerLen = P :=
  List.drop_left' (wavHeader_length f rate P.length)

/-- Settles O46: a frame is a header with the payload as the bytes that follow, so its fields are the header's. -/
theorem frameHasTheLayoutOfTheMap : Obligations.FrameHasTheLayoutOfTheMap := by
  intro rate P hr
  constructor
  · intro hl
    obtain ⟨riff, wave, fmt, data⟩ := wavHeader_append_tags .pcm8 rate P.length P
    obtain ⟨riffSize, dataSize⟩ := memRead_wavHeader_append_sizes .pcm8 rate P hl
    obtain ⟨size, code, channels, sampleRate, byteRate, align, bits⟩ := memRead_wavHeader_append_fmt .pcm8 P.length P hr
    exact ⟨riff, riffSize, wave, fmt, size, code, channels, sampleRate, byteRate, align, bits, data, dataSize,
      wavFrame_drop .pcm8 rate P⟩
  · intro hl
    obtain ⟨riff, wave, fmt, data⟩ := wavHeader_append_tags .alaw8 rate P.length P
    obtain ⟨riffSize, dataSize⟩ := memRead_wavHeader_append_sizes .alaw8 rate P hl
    obtain ⟨size, code, channels, sampleRate, byteRate, align, bits⟩ := memRead_wavHeader_append_fmt .alaw8 P.length P hr
    exact ⟨riff, riffSize, wave, fmt, size, code, channels, sampleRate, byteRate, align, bits,
      memRead_wavHeader_alaw8_append_extra rate P.length P, data, dataSize, wavFrame_drop .alaw8 rate P⟩

end Sys2Proof.Machine
end

section
/-! SUPPORT. The header and the frame as whole values, and the frame commands as their checks and then their rest
(spec/42_wav_frame.md R151 to R161, 60_exceptions.md R211): what a rule is once its checks have passed or raised, and what a
command that emits has emitted. -/

namespace Sys2Proof.Machine

-- The header and the frame ----------------------------------------------------------------------------------------

/-- H is the descriptor's tail and the 8 bytes that the RIFF chunk size leaves out (R140, R145). -/
theorem headerLen_eq_tail (f : Format) : (descOf f).headerLen = (descOf f).tail + 8 := by cases f <;> rfl

/-- The RIFF chunk size is 8 less than the frame's length, where it fits its field (R160). -/
theorem memRead_wavFrame_riffSize (f : Format) (rate : Nat) {P : List Byte} (hl : (descOf f).tail + P.length < 2 ^ 32) :
    memRead (wavFrame f rate P) 4 4 + 8 = (wavFrame f rate P).length := by
  have size : memRead (wavFrame f rate P) 4 4 = (descOf f).tail + P.length :=
    (memRead_wavHeader_append_sizes f rate P hl).1
  rw [size, wavFrame_length, headerLen_eq_tail]
  omega

/-- Settles O47: a frame is a header and then its payload; the scenario is an instance of the size field's rule. -/
theorem frameLengthIsHeaderPlusPayload : Obligations.FrameLengthIsHeaderPlusPayload := by
  refine ⟨fun f rate P => ⟨rfl, wavFrame_length f rate P, memRead_wavFrame_riffSize f rate⟩,
    fun rate P => ⟨wavFrame_length .pcm8 rate P, wavFrame_length .alaw8 rate P⟩, fun rate P h => ?_⟩
  have length : (wavFrame .alaw8 rate P).length = 2046 := by rw [wavFrame_length, h]; rfl
  have size := memRead_wavFrame_riffSize .alaw8 rate (P := P) (by rw [h]; decide)
  exact ⟨length, by omega⟩

/-- Settles O60: a header alone is a header with no byte after it. -/
theorem headerHasTheFieldsOfItsRules : Obligations.HeaderHasTheFieldsOfItsRules := by
  intro rate len hr
  constructor
  · intro hl
    refine ⟨wavHeader_length .pcm8 rate len, ?_⟩
    rw [← List.append_nil (wavHeader .pcm8 rate len)]
    obtain ⟨riff, wave, fmt, data⟩ := wavHeader_append_tags .pcm8 rate len []
    obtain ⟨riffSize, dataSize⟩ := memRead_wavHeader_append_sizes .pcm8 rate [] hl
    obtain ⟨size, code, channels, sampleRate, byteRate, align, bits⟩ := memRead_wavHeader_append_fmt .pcm8 len [] hr
    exact ⟨riff, riffSize, wave, fmt, size, code, channels, sampleRate, byteRate, align, bits, data, dataSize⟩
  · intro hl
    refine ⟨wavHeader_length .alaw8 rate len, ?_⟩
    rw [← List.append_nil (wavHeader .alaw8 rate len)]
    obtain ⟨riff, wave, fmt, data⟩ := wavHeader_append_tags .alaw8 rate len []
    obtain ⟨riffSize, dataSize⟩ := memRead_wavHeader_append_sizes .alaw8 rate [] hl
    obtain ⟨size, code, channels, sampleRate, byteRate, align, bits⟩ := memRead_wavHeader_append_fmt .alaw8 len [] hr
    exact ⟨riff, riffSize, wave, fmt, size, code, channels, sampleRate, byteRate, align, bits,
      memRead_wavHeader_alaw8_append_extra rate len [], data, dataSize⟩

-- The checks, then the rest ---------------------------------------------------------------------------------------

/-- Without STRICT_CONFIG only the length is checked (R153, R208). -/
theorem frameCheck_not_strict {f : Format} {rate len : Nat} (h : len ≤ u32Max - (descOf f).tail) :
    frameCheck false f rate len = none :=
  frameCheck_none.mpr ⟨nofun, h⟩

/-- Under STRICT_CONFIG the rate 0 is the first error, whatever the length (R206, R211). -/
theorem frameCheck_strict_rate_zero (f : Format) (len : Nat) : frameCheck true f 0 len = some .configZeroRate := rfl

/-- Under STRICT_CONFIG the length 0 with a rate is CONFIG_EMPTY_PAYLOAD (R207). -/
theorem frameCheck_strict_len_zero (f : Format) {rate : Nat} (h : rate ≠ 0) :
    frameCheck true f rate 0 = some .configEmptyPayload := by
  simp [frameCheck, h]

section Rules
variable {strict : Bool} {f : Format} {s : State}

/-- Past its checks a frame command is its rest (R155 to R159). -/
theorem checkedRule_of_check_none (rest : Ending) (ha : s.avail 3 = true)
    (hc : frameCheck strict f s.rate s.len = none) : checkedRule strict f s rest = rest := by
  rw [checkedRule_of_avail rest ha, checkedEnding, hc]

/-- The error of its checks is what a frame command raises, whatever its rest (R211). -/
theorem checkedRule_of_check_some {e : ErrCode} (rest : Ending) (ha : s.avail 3 = true)
    (hc : frameCheck strict f s.rate s.len = some e) : checkedRule strict f s rest = .raises e := by
  rw [checkedRule_of_avail rest ha, checkedEnding, hc]

/-- FRAME past its checks, with all its payload words there and each of them a byte (R157, R158). -/
theorem frameRule_of_bytes (ha : s.avail (3 + s.len) = true) (hc : frameCheck strict f s.rate s.len = none)
    (hb : ∀ w ∈ s.inWords 3 s.len, payloadBad w = false) : frameRule strict f s =
    .completes (wavFrame f s.rate ((s.inWords 3 s.len).map payloadByte)) (3 + s.len) := by
  have h3 : s.avail 3 = true := s.avail_mono (Nat.le_add_right 3 _) ha
  rw [frameRule, checkedRule_of_check_none _ h3 hc, if_pos ha, payloadEnding_of_bytes hb]

/-- FRAMEA past its checks, with all its samples there (R159). -/
theorem frameaRule_of_avail (ha : s.avail (3 + s.len) = true) (hc : frameCheck strict .alaw8 s.rate s.len = none) :
    frameaRule strict s =
      .completes (wavFrame .alaw8 s.rate ((s.inWords 3 s.len).map encodeSample)) (3 + s.len) := by
  have h3 : s.avail 3 = true := s.avail_mono (Nat.le_add_right 3 _) ha
  rw [frameaRule, checkedRule_of_check_none _ h3 hc, if_pos ha]

/-- Without STRICT_CONFIG, FRAME and FRAMEA of length 0 complete with the bare header (R153). -/
theorem frameRules_of_len_zero (ha : s.avail 3 = true) (h0 : s.len = 0) :
    frameRule false f s = .completes (wavHeader f s.rate 0) 3 ∧
    frameaRule false s = .completes (wavHeader .alaw8 s.rate 0) 3 := by
  have ha' : s.avail (3 + s.len) = true := by rw [h0]; exact ha
  have hc : ∀ g, frameCheck false g s.rate s.len = none := fun g => frameCheck_not_strict (by rw [h0]; exact Nat.zero_le _)
  have hw : s.inWords 3 s.len = [] := by rw [h0]; exact List.take_zero
  rw [frameRule_of_bytes ha' (hc f) (by simp [hw]), frameaRule_of_avail ha' (hc .alaw8), hw, h0]
  simp [wavFrame]

end Rules

/-- Settles O54: the value of STRICT_CONFIG decides the checks, and each rule is what its checks leave of it. -/
theorem strictnessDecidesOnZeros : Obligations.StrictnessDecidesOnZeros := by
  refine ⟨?_, ?_, ?_, ?_, ?_, ?_⟩
  · intro s f ha hl
    exact checkedRule_of_check_none _ ha (frameCheck_not_strict hl)
  · intro s f ha h0
    obtain ⟨frame, framea⟩ := frameRules_of_len_zero (f := f) ha h0
    refine ⟨frame, framea, wavHeader_length f s.rate 0, ?_⟩
    rw [← List.append_nil (wavHeader f s.rate 0)]
    exact (memRead_wavHeader_append_sizes f s.rate [] (by cases f <;> decide)).2
  · intro s f ha hl hb
    exact ⟨_, frameRule_of_bytes ha (frameCheck_not_strict hl) hb⟩
  · intro s ha hl
    exact ⟨_, frameaRule_of_avail ha (frameCheck_not_strict hl)⟩
  · intro s f ha h0
    have hc : ∀ g, frameCheck true g s.rate s.len = some .configZeroRate := fun g => by
      rw [h0, frameCheck_strict_rate_zero]
    exact ⟨checkedRule_of_check_some _ ha (hc f), checkedRule_of_check_some _ ha (hc f),
      checkedRule_of_check_some _ ha (hc .alaw8)⟩
  · intro s f ha hr h0
    have hc : ∀ g, frameCheck true g s.rate s.len = some .configEmptyPayload := fun g => by
      rw [h0, frameCheck_strict_len_zero g hr]
    exact ⟨checkedRule_of_check_some _ ha (hc f), checkedRule_of_check_some _ ha (hc f),
      checkedRule_of_check_some _ ha (hc .alaw8)⟩

-- What was emitted ------------------------------------------------------------------------------------------------

/-- Only a completion appends to OUT (R200, R209). -/
theorem State.completes_of_finish_OUT_ne {s : State} {e : Ending} (h : (s.finish e).OUT ≠ s.OUT) :
    ∃ bs n, e = .completes bs n := by
  cases e with
  | completes bs n => exact ⟨bs, n, rfl⟩
  | raises e => exact absurd rfl h
  | holds => exact absurd rfl h

/-- A payload's ending that completes does so with the frame of its bytes (R157). -/
theorem payloadEnding_completes {f : Format} {rate len n : Nat} {ws : List Word} {bs : List Byte}
    (h : payloadEnding f rate len ws = .completes bs n) : bs = wavFrame f rate (ws.map payloadByte) := by
  unfold payloadEnding at h
  split at h
  · cases h
  · cases h
    rfl

/-- FRAME or FRAMEA that completes has the frame of RATE and of LEN bytes, one for each of its words (R157 to R159). -/
theorem checkedRest_completes_frame {s : State} {i : Instr} {f : Format} {bs : List Byte} {n : Nat}
    (hf : formatOf i = some f) (h1 : i ≠ .hdrPcm8) (h2 : i ≠ .hdrAlaw8)
    (h : checkedRest f s i = .completes bs n) : ∃ P, P.length = s.len ∧ bs = wavFrame f s.rate P := by
  have frame : ∀ {r : Ending}, (if s.avail (3 + s.len) then r else .holds) = .completes bs n →
      s.avail (3 + s.len) = true ∧ r = .completes bs n := fun h => by
    split at h
    · exact ⟨by assumption, h⟩
    · cases h
  cases i with
  | enc | encv => cases hf
  | hdrPcm8 => exact absurd rfl h1
  | hdrAlaw8 => exact absurd rfl h2
  | framePcm8 | frameAlaw8 =>
    obtain ⟨ha, hr⟩ := frame h
    exact ⟨_, (List.length_map _).trans (s.inWords_length ha), payloadEnding_completes hr⟩
  | framea =>
    obtain ⟨ha, hr⟩ := frame h
    cases hr
    exact ⟨_, (List.length_map _).trans (s.inWords_length ha), rfl⟩

/-- Settles O55: what was emitted is a checked frame, and a frame is a header with the payload as the bytes that follow. -/
theorem emittedFramesReadBack : Obligations.EmittedFramesReadBack := by
  intro s t i f hf h1 h2 hexec hout
  rw [exec_eq, Host.Outcome.next.injEq] at hexec
  subst hexec
  obtain ⟨bs, n, he⟩ := State.completes_of_finish_OUT_ne hout
  obtain ⟨-, hc, hrest⟩ := checkedRule_completes ((ruleOf_of_format hf s).symm.trans he)
  obtain ⟨P, hlen, rfl⟩ := checkedRest_completes_frame hf h1 h2 hrest
  have out : (s.finish (ruleOf s i)).OUT = s.OUT ++ wavFrame f s.rate P := by rw [he, State.finish_completes_OUT]
  have hr : s.rate < 2 ^ 32 := (s.inWord 1).isLt
  have hl : (descOf f).tail + P.length < 2 ^ 32 := hlen ▸ frameCheck_fits hc
  obtain ⟨riffSize, dataSize⟩ := memRead_wavHeader_append_sizes f s.rate P hl
  obtain ⟨-, code, -, sampleRate, byteRate, -, -⟩ := memRead_wavHeader_append_fmt f P.length P hr
  exact ⟨_, P, out, rfl, hlen, riffSize, sampleRate, byteRate, dataSize, code, wavFrame_drop f s.rate P⟩

end Sys2Proof.Machine
end

section
/-! SUPPORT. The host's quantizers over exact rationals (spec/43_quantization.md R171 to R175): q8 is the floor clamped to a
byte, and q16 rounds to the nearest integer, its rule deciding at ties alone. -/

namespace Sys2Proof.Machine

-- The floor -------------------------------------------------------------------------------------------------------

/-- The floor is the one integer with the rational in the unit interval above it. -/
theorem floor_eq_of_bounds {y : Rat} {n : Int} (h1 : (n : Rat) ≤ y) (h2 : y < (n : Rat) + 1) : y.floor = n :=
  Int.floor_eq_iff.mpr ⟨h1, h2⟩

theorem floor_add_half (k : Int) : ((k : Rat) + 1 / 2).floor = k := floor_eq_of_bounds (by linarith) (by linarith)

-- q8 --------------------------------------------------------------------------------------------------------------

/-- Below 0 truncation can differ from the floor, but neither of them is positive (R172). -/
theorem trunc_eq_floor_or_nonpos (y : Rat) : trunc y = y.floor ∨ (trunc y ≤ 0 ∧ y.floor ≤ 0) := by
  unfold trunc
  split
  case isTrue h => exact .inl rfl
  case isFalse h =>
    have above : 0 ≤ (-y).floor := Rat.le_floor_iff.mpr (by push_cast; linarith)
    have below : y.floor < 0 := Rat.floor_lt_iff.mpr (by push_cast; linarith)
    exact .inr ⟨by omega, by omega⟩

/-- The level of q8 is the floor clamped to a byte: the clamp hides where truncation differs (R172, R173). -/
theorem q8Level_eq (y : Rat) : q8Level y = max 0 (min 255 y.floor) := by
  unfold q8Level clamp
  have := trunc_eq_floor_or_nonpos y
  omega

theorem q8Level_of_ge {y : Rat} (h : 255 ≤ y) : q8Level y = 255 := by
  have : 255 ≤ y.floor := Rat.le_floor_iff.mpr h
  rw [q8Level_eq]
  omega

theorem q8Level_of_lt_one {y : Rat} (h : y < 1) : q8Level y = 0 := by
  have : y.floor < 1 := Rat.floor_lt_iff.mpr h
  rw [q8Level_eq]
  omega

/-- In exact arithmetic q8 stores the level of its scaled sample (R171). -/
theorem q8_exactFormat (x : Rat) :
    q8 exactFormat x = some (BitVec.ofInt 8 (q8Level ((x + 1) * (255 / 2) + 1 / 2))) := rfl

/-- Where the scaled sample is an integer, q8 stores that integer clamped (R171, R173). -/
theorem q8_exactFormat_of_scaled {x : Rat} {n : Int} (h : (x + 1) * (255 / 2) + 1 / 2 = n) :
    q8 exactFormat x = some (BitVec.ofInt 8 (max 0 (min 255 n))) := by
  rw [q8_exactFormat, h, q8Level_eq, Rat.floor_intCast]

/-- Settles O56: the level is the clamped floor, and the two ends saturate because their scaled samples pass 255 and stay
below 1. -/
theorem q8TruncationIsFloorAfterTheClamp : Obligations.Q8TruncationIsFloorAfterTheClamp := by
  refine ⟨fun y => ?_, fun x => ?_, fun x h => ?_, fun x h => ?_,
    q8_exactFormat_of_scaled (n := 128) (by norm_num), q8_exactFormat_of_scaled (n := 3) (by norm_num)⟩
  · rw [q8Level_eq]
    omega
  · rw [q8_exactFormat, q8Level_eq]
  · rw [q8_exactFormat, q8Level_of_ge (by linarith)]
    rfl
  · rw [q8_exactFormat, q8Level_of_lt_one (by linarith)]
    rfl

-- q16: rounding to the nearest integer ----------------------------------------------------------------------------

section Rounding
variable {y : Rat} (t : TieRule)

theorem roundTies_of_lt (h : y < y.floor + 1 / 2) : roundTies t y = y.floor := if_pos (by linarith)

theorem roundTies_of_gt (h : y.floor + 1 / 2 < y) : roundTies t y = y.floor + 1 := by
  rw [roundTies, if_neg (by linarith), if_pos (by linarith)]

/-- Only at a tie does the rule decide (R175). -/
theorem roundTies_of_tie (h : y = y.floor + 1 / 2) : roundTies t y = tieTarget t y.floor := by
  rw [roundTies, if_neg (by linarith), if_neg (by linarith)]

theorem tieTarget_cases (k : Int) : tieTarget t k = k ∨ tieTarget t k = k + 1 := by
  cases t with
  | halfEven => exact ite_eq_or_eq (k % 2 = 0) k (k + 1)
  | halfAway => exact (ite_eq_or_eq (k ≥ 0) (k + 1) k).symm
  | halfUp => exact .inr rfl

/-- Rounding goes down in the lower half of a unit interval and up in the upper half; a tie goes either way (R175). -/
theorem roundTies_cases (y : Rat) : (roundTies t y = y.floor ∧ y ≤ y.floor + 1 / 2) ∨
    (roundTies t y = y.floor + 1 ∧ y.floor + 1 / 2 ≤ y) := by
  obtain h | h | h := lt_trichotomy y (y.floor + 1 / 2)
  · exact .inl ⟨roundTies_of_lt t h, h.le⟩
  · rw [roundTies_of_tie t h]
    exact (tieTarget_cases t y.floor).imp (⟨·, h.le⟩) (⟨·, h.ge⟩)
  · exact .inr ⟨roundTies_of_gt t h, h.le⟩

/-- The rounded value is at most one half away (R175). -/
theorem roundTies_near (y : Rat) : y - 1 / 2 ≤ (roundTies t y : Rat) ∧ (roundTies t y : Rat) ≤ y + 1 / 2 := by
  have lo := Rat.floor_le y
  have hi := Rat.lt_floor (x := y)
  obtain ⟨h, hy⟩ | ⟨h, hy⟩ := roundTies_cases t y
  · rw [h]
    constructor <;> linarith
  · rw [h]
    push_cast
    constructor <;> linarith

/-- The tie between `k` and `k + 1` goes where the rule sends it (R175). -/
theorem roundTies_add_half (k : Int) : roundTies t ((k : Rat) + 1 / 2) = tieTarget t k := by
  rw [roundTies_of_tie t (by rw [floor_add_half]), floor_add_half]

/-- Rounding does not pass an integer that the value does not pass. -/
theorem le_roundTies {n : Int} (h : (n : Rat) ≤ y) : n ≤ roundTies t y := by
  have : (n : Rat) < (roundTies t y : Rat) + 1 := by linarith [(roundTies_near t y).1]
  exact Int.lt_add_one_iff.mp (by exact_mod_cast this)

theorem roundTies_le {n : Int} (h : y ≤ (n : Rat)) : roundTies t y ≤ n := by
  have : (roundTies t y : Rat) < (n : Rat) + 1 := by linarith [(roundTies_near t y).2]
  exact Int.lt_add_one_iff.mp (by exact_mod_cast this)

end Rounding

/-- Two rules differ at ties alone (R175). -/
theorem roundTies_congr (t u : TieRule) {y : Rat} (h : y ≠ y.floor + 1 / 2) : roundTies t y = roundTies u y := by
  obtain h | h := lt_or_gt_of_ne h
  · rw [roundTies_of_lt t h, roundTies_of_lt u h]
  · rw [roundTies_of_gt t h, roundTies_of_gt u h]

/-- HALF_UP adds one half and takes the floor (R175). -/
theorem roundTies_halfUp (y : Rat) : roundTies .halfUp y = (y + 1 / 2).floor := by
  refine (floor_eq_of_bounds (roundTies_near .halfUp y).2 ?_).symm
  have hi := Rat.lt_floor (x := y)
  obtain h | h | h := lt_trichotomy y (y.floor + 1 / 2)
  · rw [roundTies_of_lt _ h]
    linarith
  · rw [roundTies_of_tie _ h, tieTarget]
    push_cast
    linarith
  · rw [roundTies_of_gt _ h]
    push_cast
    linarith

/-- HALF_EVEN sends a tie to an even integer (R175). -/
theorem tieTarget_halfEven_even (k : Int) : tieTarget .halfEven k % 2 = 0 := by
  by_cases h : k % 2 = 0
  · rw [tieTarget, if_pos h, h]
  · rw [tieTarget, if_neg h]
    omega

/-- Settles O57: distance and agreement by the half of the unit interval, the ties by the rule's target, and the two samples of
R175 by their products, which are ties. -/
theorem q16RoundsToTheNearestInteger : Obligations.Q16RoundsToTheNearestInteger := by
  have half : (1 / 2 * 32767 : Rat) = ((16383 : Int) : Rat) + 1 / 2 := by norm_num
  have negHalf : (-1 / 2 * 32767 : Rat) = ((-16384 : Int) : Rat) + 1 / 2 := by norm_num
  refine ⟨roundTies_near, fun t u y h => roundTies_congr t u h, roundTies_halfUp, fun k => ⟨?_, ?_, ?_⟩, fun t => ?_,
    by decide, ?_, ?_, ?_, by decide, by decide⟩
  · rw [roundTies_add_half, tieTarget_halfEven_even]
  · rw [roundTies_add_half, tieTarget]
  · rw [roundTies_add_half, tieTarget]
  · rw [half, roundTies_add_half]
    cases t <;> decide
  all_goals
    rw [negHalf, roundTies_add_half]
    decide

/-- Settles O58: the product lies between the integers -32767 and 32767, and rounding does not pass them. -/
theorem q16MapsTheUnitRange : Obligations.Q16MapsTheUnitRange := fun t x =>
  ⟨rfl, fun h1 h2 => ⟨le_roundTies t (by push_cast; linarith), roundTies_le t (by push_cast; linarith)⟩⟩

end Sys2Proof.Machine
end

section
/-! SUPPORT. The host's data paths in front of the block (spec/43_quantization.md R177): the word of a quantized sample gives
the byte of the path's file, and one step from reset runs a whole command. -/

namespace Sys2Proof.Machine

-- Lists of samples ------------------------------------------------------------------------------------------------

section Samples
variable {α β γ : Type} {q : Rat → Option α} {xs : List Rat}

theorem quantizeAll_cons_eq_some {x : Rat} {ys : List α} : quantizeAll q (x :: xs) = some ys ↔
    ∃ z zs, q x = some z ∧ quantizeAll q xs = some zs ∧ z :: zs = ys := by
  simp [quantizeAll, Option.bind_eq_some_iff]

theorem quantizeAll_length {ys : List α} (h : quantizeAll q xs = some ys) : ys.length = xs.length := by
  induction xs generalizing ys with
  | nil =>
    cases h
    rfl
  | cons x xs ih =>
    obtain ⟨z, zs, -, hzs, rfl⟩ := quantizeAll_cons_eq_some.mp h
    simp [ih hzs]

/-- Where a second quantizer has a value with the same code for every value of the first, it has one for the whole list, with
the same codes. -/
theorem quantizeAll_map_of_forall {p : Rat → Option β} {f : α → γ} {g : β → γ}
    (hq : ∀ x a, q x = some a → ∃ b, p x = some b ∧ g b = f a) {ys : List α} (h : quantizeAll q xs = some ys) :
    ∃ zs, quantizeAll p xs = some zs ∧ zs.map g = ys.map f := by
  induction xs generalizing ys with
  | nil =>
    cases h
    exact ⟨[], rfl, rfl⟩
  | cons x xs ih =>
    obtain ⟨a, as, ha, has, rfl⟩ := quantizeAll_cons_eq_some.mp h
    obtain ⟨b, hb, hgb⟩ := hq x a ha
    obtain ⟨bs, hbs, hgbs⟩ := ih has
    exact ⟨b :: bs, quantizeAll_cons_eq_some.mpr ⟨b, bs, hb, hbs, rfl⟩, by simp [hgb, hgbs]⟩

end Samples

-- The words of the two paths --------------------------------------------------------------------------------------

/-- A byte stands in its payload word with the bits [31:8] zero (R72). -/
theorem payloadBad_setWidth (b : Byte) : payloadBad (b.setWidth 32) = false := by
  revert b
  decide

/-- The payload byte of that word is the byte itself (R72). -/
theorem payloadByte_setWidth (b : Byte) : payloadByte (b.setWidth 32) = b := by
  revert b
  decide

/-- The sample word of a q16 result has the code of that result (R71, R177). -/
theorem alawEncode_of_sampleWordOf {n : Int} {w : Word} (h : sampleWordOf n = some w) : alawEncode n = encodeSample w := by
  have bounds : -2 ^ 31 ≤ n ∧ n ≤ 2 ^ 31 - 1 ∧ BitVec.ofInt 32 n = w := by
    simpa [sampleWordOf, sampleInRange, and_assoc] using h
  obtain ⟨lo, hi, rfl⟩ := bounds
  have value : sint32 (BitVec.ofInt 32 n) = n := by
    rw [sint32, BitVec.toInt_ofInt, Int.bmod_eq_of_le] <;> omega
  rw [encodeSample, value]

-- One step from reset ---------------------------------------------------------------------------------------------

theorem State.finalClean_iff (s : State) : s.finalClean = true ↔ s.err = 0 ∧ s.ip = s.IN.length := by
  simp [State.finalClean]

/-- A whole command that completes with all its words, appended after reset, leaves its bytes in OUT and a final and clean
run (R177, R247). -/
theorem step_reset_of_completes {c : Command} {bs : List Byte} {n : Nat} (hc : c.wf = true)
    (hn : (encode c).length = n) (h : commandEnding Config.strictConfig c = .completes bs n) :
    ∃ t, step (State.reset.hostAppends (encode c)) = .next t ∧ t.OUT = bs ∧ t.finalClean = true := by
  have hp : (State.reset.hostAppends (encode c)).pending = encode c ++ [] := by
    rw [State.reset_hostAppends_pending, List.append_nil]
  have herr := State.reset_hostAppends_err (encode c)
  refine ⟨_, step_of_pending_encode herr hc hp, ?_⟩
  rw [h, State.finalClean_iff]
  exact ⟨by simp [State.reset], herr, by simp [State.reset, hn]⟩

section Paths
variable {rate : Word} {xs : List Rat} {ws : List Word}

/-- The items that a path gives its frame command fit the count word, and its operands pass the checks (R70, R211). -/
theorem path_operands_pass {f : Format} (len : ws.length = xs.length) (hl : xs.length ≤ u32Max - (descOf f).tail)
    (hs : Config.strictConfig = true → rate ≠ 0 ∧ xs ≠ []) :
    countFits ws = true ∧ frameCheck Config.strictConfig f (uint rate) ws.length = none := by
  rw [countFits_iff, frameCheck_none, len]
  refine ⟨?_, fun h => ?_, hl⟩
  · have : u32Max < 2 ^ 32 := by decide
    omega
  · obtain ⟨hr, hx⟩ := hs h
    exact ⟨fun h0 => hr (BitVec.eq_of_toNat_eq h0), fun h0 => hx (List.length_eq_zero_iff.mp h0)⟩

/-- FRAME.PCM8 after reset, past its checks and with bytes as its payload words, makes OUT the frame of them (R157). -/
theorem step_reset_framePcm8 (hw : countFits ws = true)
    (hc : frameCheck Config.strictConfig .pcm8 (uint rate) ws.length = none) (hb : ∀ w ∈ ws, payloadBad w = false) :
    ∃ t, step (State.reset.hostAppends (encode (.framePcm8 rate ws))) = .next t ∧
      t.OUT = wavFrame .pcm8 (uint rate) (ws.map payloadByte) ∧ t.finalClean = true := by
  refine step_reset_of_completes (n := 3 + ws.length) hw ?_ ?_
  · simp only [encode, Command.args, List.length_cons]
    omega
  · rw [commandEnding, checkedEnding, hc, payloadEnding_of_bytes hb]

/-- FRAMEA after reset, past its checks, makes OUT the frame of its samples' codes (R159). -/
theorem step_reset_framea (hw : countFits ws = true)
    (hc : frameCheck Config.strictConfig .alaw8 (uint rate) ws.length = none) :
    ∃ t, step (State.reset.hostAppends (encode (.framea rate ws))) = .next t ∧
      t.OUT = wavFrame .alaw8 (uint rate) (ws.map encodeSample) ∧ t.finalClean = true := by
  refine step_reset_of_completes (n := 3 + ws.length) hw ?_ ?_
  · simp only [encode, Command.args, List.length_cons]
    omega
  · rw [commandEnding, checkedEnding, hc]

/-- Of the words of the PCM8 path none is bad, and their bytes are the path's own (R177). -/
theorem payloadBytes_of_bytes (bs : List Byte) : (∀ w ∈ bs.map fun b => b.setWidth 32, payloadBad w = false) ∧
    (bs.map fun b => b.setWidth 32).map payloadByte = bs := by
  constructor
  · simp [payloadBad_setWidth]
  · simp [Function.comp_def, payloadByte_setWidth]

/-- The codes of the words of the ALAW8 path are those of its q16 values (R177). -/
theorem sampleCodes_of_q16 {F : FloatFormat} {t : TieRule}
    (h : quantizeAll (fun x => (q16 F t x).bind sampleWordOf) xs = some ws) :
    ∃ ys, quantizeAll (q16 F t) xs = some ys ∧ ys.map alawEncode = ws.map encodeSample := by
  refine quantizeAll_map_of_forall (fun x w hw => ?_) h
  obtain ⟨n, hn, hnw⟩ := Option.bind_eq_some_iff.mp hw
  exact ⟨n, hn, alawEncode_of_sampleWordOf hnw⟩

end Paths

/-- Settles O59: a path's operands pass the checks, its command makes OUT the frame of its words, and these words give the
bytes of the path's file. -/
theorem dataPathsProduceTheirFiles : Obligations.DataPathsProduceTheirFiles := by
  constructor
  · intro F rate xs c h hl hs
    obtain ⟨bs, hbs, rfl⟩ := Option.map_eq_some_iff.mp h
    obtain ⟨bytes, file⟩ := payloadBytes_of_bytes bs
    have len : (bs.map fun b => b.setWidth 32).length = xs.length := by rw [List.length_map, quantizeAll_length hbs]
    obtain ⟨fits, checks⟩ := path_operands_pass (f := .pcm8) len hl hs
    obtain ⟨t, stepped, out, clean⟩ := step_reset_framePcm8 fits checks bytes
    exact ⟨t, stepped, by rw [pcm8File, hbs, out, file]; rfl, clean⟩
  · intro F ties rate xs c h hl hs
    obtain ⟨ws, hws, rfl⟩ := Option.map_eq_some_iff.mp h
    obtain ⟨ys, hys, file⟩ := sampleCodes_of_q16 hws
    obtain ⟨fits, checks⟩ := path_operands_pass (f := .alaw8) (quantizeAll_length hws) hl hs
    obtain ⟨t, stepped, out, clean⟩ := step_reset_framea fits checks
    exact ⟨t, stepped, by rw [alaw8File, hys, out, ← file]; rfl, clean⟩

end Sys2Proof.Machine
end

section
/-! SUPPORT. The error that an ending records (spec/60_exceptions.md R202, R209), and the obligations on a halted block (R212,
R213) and on several instances (R218): a halted block takes its events as appends or not at all. -/

namespace Sys2Proof.Machine

-- The error of an ending ------------------------------------------------------------------------------------------

/-- The code that an ending writes to an ERR of 0, and 0 for one that writes none (R202). -/
def Ending.errCode : Ending → BitVec 4
  | .completes _ _ => 0
  | .raises e => e.code
  | .holds => 0

@[simp] theorem Ending.errCode_raises (e : ErrCode) : (Ending.raises e).errCode = e.code := rfl

/-- In a running block ERR after the end of a command is the code of its ending (R209). -/
theorem State.finish_err {s : State} (h0 : s.err = 0) (e : Ending) : (s.finish e).err = e.errCode := by
  cases e with
  | completes bs n => exact h0
  | raises e => exact s.raiseError_err e
  | holds => exact h0

/-- Every raise has a nonzero code (R202). -/
theorem Ending.errCode_eq_zero_iff {e : Ending} : e.errCode = 0 ↔ ∀ c, e ≠ .raises c := by
  cases e with
  | completes bs n => exact iff_of_true rfl nofun
  | raises c => exact iff_of_false c.code_range.1 fun h => h c rfl
  | holds => exact iff_of_true rfl nofun

/-- Only a raise changes STATUS (R200, R209). -/
theorem State.finish_STATUS_of_not_raises {s : State} {e : Ending} (h : ∀ c, e ≠ .raises c) :
    (s.finish e).STATUS = s.STATUS := by
  cases e with
  | completes bs n => rfl
  | raises c => exact absurd rfl (h c)
  | holds => rfl

/-- The six causes have six codes (R202). -/
theorem ErrCode.code_injective : Function.Injective ErrCode.code := by
  intro c d
  cases c <;> cases d <;> decide

/-- A code that ERR did not hold before is recorded exactly by raising its cause (R209). -/
theorem State.finish_err_eq_code_iff {s : State} {e : Ending} {c : ErrCode} (h : s.err ≠ c.code) :
    (s.finish e).err = c.code ↔ e = .raises c := by
  cases e with
  | completes bs n => exact iff_of_false h nofun
  | raises d => simp [ErrCode.code_injective.eq_iff]
  | holds => exact iff_of_false h nofun

-- The halted block ------------------------------------------------------------------------------------------------

/-- A halted block has no step (R212). -/
theorem State.blockStep_of_halted {s : State} (h : s.err ≠ 0) : s.blockStep = s := by
  rw [State.blockStep_eq, State.ending_halted h, State.finish_holds]

/-- Of the events of a halted block but reset, only an append does anything (R212, R248). -/
theorem State.event_of_halted {s : State} {e : Event} (h : s.err ≠ 0) (he : e ≠ .host .reset) :
    s.event e = s.hostAppends (appendedWords [e]) := by
  cases e with
  | block => exact State.blockStep_of_halted h
  | host a =>
    cases a with
    | reset => exact absurd rfl he
    | append w | readOut i | readStatus | readIp | writeStatus v | writeIp n => rfl

theorem appendedWords_cons (e : Event) (es : List Event) :
    appendedWords (e :: es) = appendedWords [e] ++ appendedWords es := by
  cases e with
  | block => rfl
  | host a => cases a <;> rfl

theorem noReset_cons {e : Event} {es : List Event} :
    noReset (e :: es) = true ↔ e ≠ .host .reset ∧ noReset es = true := by
  simp [noReset]

/-- Over any events without a reset a halted block only receives the appended words (R212). -/
theorem State.events_of_halted {s : State} {es : List Event} (h : s.err ≠ 0) (hes : noReset es = true) :
    s.events es = s.hostAppends (appendedWords es) := by
  induction es generalizing s with
  | nil => rfl
  | cons e es ih =>
    obtain ⟨he, hes⟩ := noReset_cons.mp hes
    calc (s.event e).events es
      _ = (s.hostAppends (appendedWords [e])).events es := by rw [State.event_of_halted h he]
      _ = (s.hostAppends (appendedWords [e])).hostAppends (appendedWords es) := ih (by simpa using h) hes
      _ = s.hostAppends (appendedWords (e :: es)) := by
        rw [appendedWords_cons e es]
        simp only [State.hostAppends_eq, List.append_assoc]

theorem State.not_enabled_of_ending_holds {s : State} (h : s.ending = .holds) : s.enabled = false := by
  simp [State.enabled, h]

/-- Settles O2: a halted block takes an event as an append or not at all, and reset leaves the state of R33. -/
theorem onlyResetLeavesTheErrorState : Obligations.OnlyResetLeavesTheErrorState := by
  intro s h
  refine ⟨fun e he => ?_, rfl, rfl, rfl, rfl⟩
  rw [State.event_of_halted h he, State.hostAppends_err]

/-- Settles O3: the events leave the state that appending their words leaves, and that state is halted too. -/
theorem haltedBlockStaysHalted : Obligations.HaltedBlockStaysHalted := by
  intro s es h hes
  rw [State.events_of_halted h hes]
  have h' : (s.hostAppends (appendedWords es)).err ≠ 0 := by simpa using h
  exact ⟨State.not_enabled_of_ending_holds (State.ending_halted h),
    State.not_enabled_of_ending_holds (State.ending_halted h'), by simp, by simp, by simp, by simp,
    decide_eq_true h', by rw [State.finalClean, decide_eq_false h', Bool.false_and]⟩

-- Several instances -----------------------------------------------------------------------------------------------

/-- Settles O10: an event modifies the list of instances at one index. -/
theorem instancesShareNothing : Obligations.InstancesShareNothing := fun _ _ _ =>
  ⟨List.length_modify .., fun _ hj => List.getElem?_modify_ne _ _ hj.symm, List.getElem?_modify_eq ..⟩

end Sys2Proof.Machine
end

section
/-! SUPPORT. The words that the decoder refuses, by their fields (spec/30_encoding.md R77, 60_exceptions.md R203, R204), and the
obligations on the two decode errors: the step raises them on the command word alone. -/

namespace Sys2Proof.Machine

/-- An IMM16 that must be 0 is refused as ILLEGAL_COMMAND where it is not (R68, R203). -/
theorem decodeZeroImm_eq_error_iff {i : Instr} {imm : BitVec 16} {e : DecodeError} :
    decodeZeroImm i imm = .error e ↔ e = .illegalCommand ∧ imm ≠ 0 := by
  unfold decodeZeroImm
  split_ifs with h
  · exact iff_of_false nofun fun ⟨_, hne⟩ => hne h
  · rw [DecodeResult.error.injEq]
    exact ⟨fun he => ⟨he.symm, h⟩, fun ⟨he, _⟩ => he.symm⟩

/-- An IMM16 that names no format is refused as BAD_FORMAT (R68, R204). -/
theorem decodeFormatImm_eq_error_iff {i j : Instr} {imm : BitVec 16} {e : DecodeError} :
    decodeFormatImm i j imm = .error e ↔ e = .badFormat ∧ imm ≠ 1 ∧ imm ≠ 6 := by
  unfold decodeFormatImm
  split_ifs with h1 h6
  · exact iff_of_false nofun fun ⟨_, hne, _⟩ => hne h1
  · exact iff_of_false nofun fun ⟨_, _, hne⟩ => hne h6
  · rw [DecodeResult.error.injEq]
    exact ⟨fun he => ⟨he.symm, h1, h6⟩, fun ⟨he, _⟩ => he.symm⟩

/-- The decoder by its fields: OP and RSV refuse a word, or OP says what IMM16 must be (R77). -/
theorem decode_cases (w : Word) :
    ((opField w ∉ opcodes ∨ rsvField w ≠ 0) ∧ decode w = .error .illegalCommand) ∨
    (opField w ∈ ([0x01, 0x02, 0x12] : List (BitVec 8)) ∧ rsvField w = 0 ∧
      ∃ i, decode w = decodeZeroImm i (imm16Field w)) ∨
    ((opField w = 0x10 ∨ opField w = 0x11) ∧ rsvField w = 0 ∧
      ∃ i j, decode w = decodeFormatImm i j (imm16Field w)) := by
  unfold decode
  by_cases hop : opField w ∈ opcodes
  · by_cases hr : rsvField w = 0
    · rw [if_neg (not_not_intro hop), if_neg (not_not_intro hr)]
      simp only [opcodes, List.mem_cons, List.not_mem_nil, or_false] at hop
      rcases hop with h | h | h | h | h
      · exact .inr (.inl ⟨by simp [h], hr, _, if_pos h⟩)
      · exact .inr (.inl ⟨by simp [h], hr, .encv, by simp [h]⟩)
      · exact .inr (.inr ⟨.inl h, hr, .hdrPcm8, .hdrAlaw8, by simp [h]⟩)
      · exact .inr (.inr ⟨.inr h, hr, .framePcm8, .frameAlaw8, by simp [h]⟩)
      · exact .inr (.inl ⟨by simp [h], hr, .framea, by simp [h]⟩)
    · exact .inl ⟨.inr hr, by rw [if_neg (not_not_intro hop), if_pos hr]⟩
  · exact .inl ⟨.inl hop, if_pos hop⟩

/-- The words of R203 (with R73, R74). -/
theorem decode_eq_illegalCommand_iff (w : Word) : decode w = .error .illegalCommand ↔
    opField w ∉ opcodes ∨ rsvField w ≠ 0 ∨
      (opField w ∈ ([0x01, 0x02, 0x12] : List (BitVec 8)) ∧ imm16Field w ≠ 0) := by
  rcases decode_cases w with ⟨hf, hd⟩ | ⟨hop, hr, i, hd⟩ | ⟨hop, hr, i, j, hd⟩
  · exact iff_of_true hd (by tauto)
  · have known : opField w ∈ opcodes := List.Subset.trans (l₂ := [0x01, 0x02, 0x12]) (by simp) (by decide) hop
    rw [hd, decodeZeroImm_eq_error_iff]
    tauto
  · have known : opField w ∈ opcodes := by rcases hop with h | h <;> simp [h, opcodes]
    have other : opField w ∉ ([0x01, 0x02, 0x12] : List (BitVec 8)) := by rcases hop with h | h <;> simp [h]
    exact iff_of_false (by simp [hd, decodeFormatImm_eq_error_iff]) (by tauto)

/-- The words of R204. -/
theorem decode_eq_badFormat_iff (w : Word) : decode w = .error .badFormat ↔
    (opField w = 0x10 ∨ opField w = 0x11) ∧ rsvField w = 0 ∧ imm16Field w ≠ 1 ∧ imm16Field w ≠ 6 := by
  rcases decode_cases w with ⟨hf, hd⟩ | ⟨hop, hr, i, hd⟩ | ⟨hop, hr, i, j, hd⟩
  · refine iff_of_false (by simp [hd]) fun ⟨hop, hr, _⟩ => ?_
    rcases hf with hf | hf
    · rcases hop with h | h <;> simp [h, opcodes] at hf
    · exact hf hr
  · have other : ¬ (opField w = 0x10 ∨ opField w = 0x11) := fun h => by rcases h with h | h <;> simp [h] at hop
    exact iff_of_false (by simp [hd, decodeZeroImm_eq_error_iff]) (by tauto)
  · rw [hd, decodeFormatImm_eq_error_iff]
    tauto

/-- In a running block with a word at ip, the step raises a decode error exactly where the decoder refuses the word (R200). -/
theorem State.ending_raises_decodeErrCode_iff {s : State} {w : Word} {e : DecodeError} (h0 : s.err = 0)
    (hw : s.IN[s.ip]? = some w) : s.ending = .raises (decodeErrCode e) ↔ decode w = .error e := by
  have ha : s.avail 1 = true := by
    rw [State.avail_iff]
    exact (List.getElem?_eq_some_iff.mp hw).1
  have word : s.inWord 0 = w := by simp [State.inWord, List.getD_eq_getElem?_getD, hw]
  rcases s.ending_cases with ⟨-, h | h⟩ | ⟨-, -, d, hd, he⟩ | ⟨-, -, i, hd, he⟩
  · exact absurd h0 h
  · simp [ha] at h
  · rw [he, ← word, hd]
    cases d <;> cases e <;> simp [decodeErrCode]
  · rw [he, ← word, hd]
    refine iff_of_false (fun h => ?_) nofun
    obtain ⟨h1, h2⟩ := ruleOf_raises h
    cases e with
    | illegalCommand => exact h1 rfl
    | badFormat => exact h2 rfl

/-- In a running block with a word at ip, the step records a decode error, changing STATUS alone, or records another code, as
the decoder refuses the word with that error or does not (R200, R203, R204). -/
theorem step_of_decode_error {s : State} {w : Word} {e : DecodeError} (h0 : s.err = 0) (hw : s.IN[s.ip]? = some w) :
    (decode w = .error e → step s = .next (s.raiseError (decodeErrCode e))) ∧
    (decode w ≠ .error e → ∃ t, step s = .next t ∧ t.err ≠ (decodeErrCode e).code) := by
  have hne : s.err ≠ (decodeErrCode e).code := fun h => (decodeErrCode e).code_range.1 (h ▸ h0)
  rw [step_eq]
  constructor
  · intro hd
    rw [(State.ending_raises_decodeErrCode_iff h0 hw).mpr hd, State.finish_raises]
  · intro hd
    refine ⟨_, rfl, fun h => hd ?_⟩
    exact (State.ending_raises_decodeErrCode_iff h0 hw).mp ((State.finish_err_eq_code_iff hne).mp h)

/-- Settles O17: the words listed are those that the decoder refuses as no command. -/
theorem illegalCommandIsRaisedByTheCommandWordAlone : Obligations.IllegalCommandIsRaisedByTheCommandWordAlone := by
  intro s w h0 hw
  obtain ⟨raised, other⟩ := step_of_decode_error (e := .illegalCommand) h0 hw
  exact ⟨fun h => raised ((decode_eq_illegalCommand_iff w).mpr h),
    fun h => other (mt (decode_eq_illegalCommand_iff w).mp h)⟩

/-- Settles O18: the words listed are those that the decoder refuses for their format. -/
theorem badFormatIsRaisedByTheCommandWordAlone : Obligations.BadFormatIsRaisedByTheCommandWordAlone := by
  intro s w h0 hw
  obtain ⟨raised, other⟩ := step_of_decode_error (e := .badFormat) h0 hw
  exact ⟨fun h => raised ((decode_eq_badFormat_iff w).mpr h), fun h => other (mt (decode_eq_badFormat_iff w).mp h)⟩

end Sys2Proof.Machine
end

section
/-! SUPPORT. The errors of the frame commands (spec/60_exceptions.md R205 to R208): the rest of a rule raises DATA_RANGE alone,
and the error of an ending is the first error of R211. The obligations on the order of the errors, on the operand checks
and on DATA_RANGE are assembled from them. -/

namespace Sys2Proof.Machine

-- The first error ------------------------------------------------------------------------------------------------

section Rules
variable {strict : Bool} {s : State} {i : Instr} {f : Format} {rate len : Nat}

/-- A command without a format has no error of its own (R111, R112). -/
theorem ruleOf_not_raises_of_formatOf_none (h : formatOf i = none) (c : ErrCode) : ruleOf s i ≠ .raises c := by
  cases i with
  | enc =>
    rw [ruleOf, encRule]
    split <;> nofun
  | encv =>
    rw [ruleOf, encvRule_eq]
    split <;> nofun
  | hdrPcm8 | hdrAlaw8 | framePcm8 | frameAlaw8 | framea => cases h

/-- A payload's ending raises DATA_RANGE alone, and exactly at a bad word (R157, R205). -/
theorem payloadEnding_raises_iff {ws : List Word} {c : ErrCode} :
    payloadEnding f rate len ws = .raises c ↔ c = .dataRange ∧ ws.any payloadBad = true := by
  rw [List.any_eq_true]
  by_cases h : ∃ w ∈ ws, payloadBad w = true
  · rw [payloadEnding_of_bad h, Ending.raises.injEq]
    exact ⟨fun hc => ⟨hc.symm, h⟩, fun ⟨hc, _⟩ => hc.symm⟩
  · have bytes : ∀ w ∈ ws, payloadBad w = false := by simpa using h
    rw [payloadEnding_of_bytes bytes]
    exact iff_of_false nofun fun ⟨_, hb⟩ => h hb

/-- Past its checks a frame command raises DATA_RANGE alone: in FRAME, with the payload words there and one of them bad
(R205). -/
theorem checkedRest_raises_iff {c : ErrCode} : checkedRest f s i = .raises c ↔
    c = .dataRange ∧ carriesPayload i = true ∧ s.avail (3 + s.len) = true ∧ (s.inWords 3 s.len).any payloadBad = true := by
  cases i with
  | enc | encv | hdrPcm8 | hdrAlaw8 => exact iff_of_false nofun (by simp [carriesPayload])
  | framePcm8 | frameAlaw8 =>
    rw [checkedRest]
    split_ifs with ha
    · simp [payloadEnding_raises_iff, carriesPayload, ha]
    · exact iff_of_false nofun fun ⟨_, _, ha', _⟩ => ha ha'
  | framea =>
    rw [checkedRest]
    refine iff_of_false ?_ (by simp [carriesPayload])
    split <;> nofun

/-- The errors of the rest by their code (R205, R211). -/
theorem checkedRest_errCode : (checkedRest f s i).errCode =
    if carriesPayload i ∧ s.avail (3 + s.len) ∧ (s.inWords 3 s.len).any payloadBad then 3 else 0 := by
  split_ifs with h
  · rw [checkedRest_raises_iff.mpr ⟨rfl, h⟩]
    rfl
  · exact Ending.errCode_eq_zero_iff.mpr fun c hc => h (checkedRest_raises_iff.mp hc).2

/-- The checks of R206 to R208 by their codes, before the error of the rest (R211). -/
theorem checkedRule_errCode (rest : Ending) : (checkedRule strict f s rest).errCode =
    if ¬ s.avail 3 then 0
    else if s.rate = 0 ∧ strict then 4
    else if s.len > u32Max - (descOf f).tail then 6
    else if s.len = 0 ∧ strict then 5
    else rest.errCode := by
  by_cases ha : s.avail 3 = true
  · rw [checkedRule_of_avail rest ha, checkedEnding, frameCheck, if_neg (not_not_intro ha)]
    simp only [Bool.and_eq_true, decide_eq_true_eq]
    split_ifs <;> rfl
  · rw [checkedRule, if_neg ha, if_pos ha]
    rfl

/-- The error of a command's rule is the first error of R211 (R206 to R208, R205). -/
theorem ruleOf_errCode (ha : s.avail 1 = true) (hd : decode (s.inWord 0) = .command i) :
    (ruleOf s i).errCode = s.firstError := by
  rw [State.firstError, if_pos ha, hd]
  cases hf : formatOf i with
  | none => simpa [hf] using Ending.errCode_eq_zero_iff.mpr (ruleOf_not_raises_of_formatOf_none hf)
  | some f =>
    rw [ruleOf_of_format hf, checkedRule_errCode, checkedRest_errCode]
    simp [hf, u32Max]

/-- The error of a running block's step is the first error of R211. -/
theorem State.ending_errCode (h0 : s.err = 0) : s.ending.errCode = s.firstError := by
  rcases s.ending_cases with ⟨he, h | ha⟩ | ⟨-, ha, e, hd, he⟩ | ⟨-, ha, i, hd, he⟩
  · exact absurd h0 h
  · simp [he, Ending.errCode, State.firstError, ha]
  · cases e <;> simp [he, State.firstError, ha, hd, decodeErrCode, ErrCode.code]
  · rw [he, ruleOf_errCode ha hd]

/-- Below Avail(3) a frame command holds (R155 to R159, R243). -/
theorem checkedRule_of_not_avail (rest : Ending) (ha : s.avail 3 = false) : checkedRule strict f s rest = .holds := by
  simp [checkedRule, ha]

/-- FRAME and FRAMEA past their checks hold below Avail(3 + LEN) (R157 to R159, R243). -/
theorem checkedRest_of_not_avail (hf : formatOf i = some f) (h1 : i ≠ .hdrPcm8) (h2 : i ≠ .hdrAlaw8)
    (ha : s.avail (3 + s.len) = false) : checkedRest f s i = .holds := by
  cases i with
  | enc | encv => cases hf
  | hdrPcm8 => exact absurd rfl h1
  | hdrAlaw8 => exact absurd rfl h2
  | framePcm8 | frameAlaw8 | framea => simp [checkedRest, ha]

/-- A checked rule whose rest holds can only raise one of its checks' errors, or hold (R211). -/
theorem checkedRule_holds_of_errCode (h : (checkedRule strict f s .holds).errCode = 0) :
    checkedRule strict f s .holds = .holds := by
  cases hc : checkedRule strict f s .holds with
  | completes bs n =>
    obtain ⟨-, -, hr⟩ := checkedRule_completes hc
    cases hr
  | raises c => exact absurd hc (Ending.errCode_eq_zero_iff.mp h c)
  | holds => rfl

end Rules

/-- A running block whose word at ip is a command word ends its step as the command's rule does (R200). -/
theorem State.ending_of_decode {s : State} {i : Instr} (h0 : s.err = 0) (ha : s.avail 1 = true)
    (hd : decode (s.inWord 0) = .command i) : s.ending = ruleOf s i := by
  simp [State.ending, State.fetch, h0, ha, hd]

/-- Settles O19: the step's error is that of its ending, and a frame command holds with its checks or with its rest. -/
theorem errorsFollowThePriorityOrder : Obligations.ErrorsFollowThePriorityOrder := by
  constructor
  · intro s t h0 hstep
    rw [step_eq, Host.Outcome.next.injEq] at hstep
    rw [← hstep, State.finish_err h0, State.ending_errCode h0]
  · intro s i f h0 ha hd hf
    have he : s.ending = checkedRule Config.strictConfig f s (checkedRest f s i) := by
      rw [State.ending_of_decode h0 ha hd, ruleOf_of_format hf]
    constructor
    · intro h3
      exact State.not_enabled_of_ending_holds (he.trans (checkedRule_of_not_avail _ h3))
    · intro h1 h2 hfirst hn
      rw [checkedRest_of_not_avail hf h1 h2 hn] at he
      have hcode : (checkedRule Config.strictConfig f s .holds).errCode = 0 := by
        rw [← he, State.ending_errCode h0, hfirst]
      exact State.not_enabled_of_ending_holds (he.trans (checkedRule_holds_of_errCode hcode))

-- The checks of the operands --------------------------------------------------------------------------------------

section Checks
variable {s : State} {i : Instr} {f : Format}

/-- A frame command whose check fails raises that error and changes STATUS alone (R206 to R209). -/
theorem exec_of_check_some {c : ErrCode} (hf : formatOf i = some f) (ha : s.avail 3 = true)
    (hc : frameCheck Config.strictConfig f s.rate s.len = some c) : exec i s = .next (s.raiseError c) := by
  rw [exec_eq, ruleOf_of_format hf, checkedRule_of_check_some _ ha hc, State.finish_raises]

/-- A frame command past its checks ends as its rest does (R155 to R159). -/
theorem exec_of_check_none (hf : formatOf i = some f) (ha : s.avail 3 = true)
    (hc : frameCheck Config.strictConfig f s.rate s.len = none) : exec i s = .next (s.finish (checkedRest f s i)) := by
  rw [exec_eq, ruleOf_of_format hf, checkedRule_of_check_none _ ha hc]

/-- A LEN above the limit is SIZE_OVERFLOW, unless a rate of 0 comes first (R208, R211). -/
theorem frameCheck_of_len_gt {strict : Bool} {rate len : Nat} (h : len > u32Max - (descOf f).tail) :
    frameCheck strict f rate len = some (if rate = 0 ∧ strict = true then .configZeroRate else .sizeOverflow) := by
  unfold frameCheck
  simp only [Bool.and_eq_true, decide_eq_true_eq, if_pos h]
  split_ifs <;> rfl

/-- Past its checks a frame command records no error but DATA_RANGE that was not there (R205). -/
theorem checkedRest_err_ne {c : ErrCode} (hc : c ≠ .dataRange) :
    (s.finish (checkedRest f s i)).err ≠ c.code ∨ s.err = c.code := by
  by_cases h : s.err = c.code
  · exact .inr h
  · exact .inl fun he => hc (checkedRest_raises_iff.mp ((State.finish_err_eq_code_iff h).mp he)).1

/-- An empty payload has no bad word, so nothing past the checks changes STATUS (R153, R205). -/
theorem checkedRest_STATUS_of_len_zero (h0 : s.len = 0) : (s.finish (checkedRest f s i)).STATUS = s.STATUS := by
  refine State.finish_STATUS_of_not_raises fun c hc => ?_
  obtain ⟨-, -, -, hb⟩ := checkedRest_raises_iff.mp hc
  simp [h0, State.inWords] at hb

/-- The words from In(3) on that are no bytes, by their places (R72, R157). -/
theorem State.any_payloadBad_iff (ha : s.avail (3 + s.len) = true) : (s.inWords 3 s.len).any payloadBad = true ↔
    ∃ j < s.len, (s.inWord (3 + j)).extractLsb' 8 24 ≠ 0 := by
  simp [s.inWords_eq_map ha, payloadBad]

/-- A command that raises DATA_RANGE is a FRAME past its checks, with its payload words there and one of them bad (R205). -/
theorem ruleOf_raises_dataRange (h : ruleOf s i = .raises .dataRange) :
    ∃ f, formatOf i = some f ∧ carriesPayload i = true ∧ frameCheck Config.strictConfig f s.rate s.len = none ∧
      s.avail (3 + s.len) = true ∧ (s.inWords 3 s.len).any payloadBad = true := by
  cases hf : formatOf i with
  | none => exact absurd h (ruleOf_not_raises_of_formatOf_none hf _)
  | some f =>
    obtain ⟨-, hc | ⟨hc, hrest⟩⟩ := checkedRule_raises ((ruleOf_of_format hf s).symm.trans h)
    · simpa using frameCheck_some hc
    · obtain ⟨-, hp, ha, hb⟩ := checkedRest_raises_iff.mp hrest
      exact ⟨f, rfl, hp, hc, ha, hb⟩

/-- FRAME with its payload words there, its checks passed and a bad word raises DATA_RANGE (R205). -/
theorem exec_of_bad_payload (hf : formatOf i = some f) (hp : carriesPayload i = true) (ha : s.avail (3 + s.len) = true)
    (hc : frameCheck Config.strictConfig f s.rate s.len = none) (hb : (s.inWords 3 s.len).any payloadBad = true) :
    exec i s = .next (s.raiseError .dataRange) := by
  have h3 : s.avail 3 = true := s.avail_mono (Nat.le_add_right 3 _) ha
  rw [exec_of_check_none hf h3 hc, checkedRest_raises_iff.mpr ⟨rfl, hp, ha, hb⟩, State.finish_raises]

/-- The instructions that carry a payload, by their formats (R157, R158). -/
theorem carriesPayload_format (hf : formatOf i = some f) (hp : carriesPayload i = true) :
    (i = .framePcm8 ∧ f = .pcm8) ∨ (i = .frameAlaw8 ∧ f = .alaw8) := by
  rcases of_decide_eq_true hp with rfl | rfl
  · exact .inl ⟨rfl, (Option.some.inj hf).symm⟩
  · exact .inr ⟨rfl, (Option.some.inj hf).symm⟩

/-- A rate is 0 exactly where its word is (R70). -/
theorem State.rate_ne_zero_iff : s.rate ≠ 0 ↔ s.inWord 1 ≠ 0 :=
  not_congr (BitVec.toNat_eq (y := 0)).symm

end Checks

/-- Settles O51: each clause is a check that fails or, without STRICT_CONFIG, the rest of the rule, whose one error is
DATA_RANGE and needs a payload. -/
theorem operandChecksRaiseInOrder : Obligations.OperandChecksRaiseInOrder := by
  intro s i f rate len hf h3 hrate hlen
  have ha : s.avail 3 = true := (s.avail_iff 3).mpr h3
  obtain rfl : rate = s.rate := hrate
  obtain rfl : len = s.len := hlen
  refine ⟨?_, ?_, ?_, ?_⟩
  · intro hl hr
    rw [exec_of_check_some hf ha (frameCheck_of_len_gt hl), if_neg fun h => hr h.1]
    rfl
  · intro hl hr
    rw [exec_of_check_some hf ha (frameCheck_of_len_gt hl)]
    cases Config.strictConfig with
    | true => rw [if_pos ⟨hr, rfl⟩]; rfl
    | false => rw [if_neg fun h => Bool.false_ne_true h.2]; rfl
  · intro hr hl
    cases hs : Config.strictConfig with
    | true =>
      refine ⟨_, exec_of_check_some hf ha (by rw [hs, hr, frameCheck_strict_rate_zero]), ?_⟩
      exact (if_pos rfl).mpr rfl
    | false =>
      refine ⟨_, exec_of_check_none hf ha (by rw [hs, frameCheck_not_strict hl]), ?_⟩
      exact (if_neg Bool.false_ne_true).mpr (checkedRest_err_ne (c := .configZeroRate) (by decide))
  · intro hr h0
    cases hs : Config.strictConfig with
    | true =>
      refine ⟨_, exec_of_check_some hf ha (by rw [hs, h0, frameCheck_strict_len_zero f hr]), ?_⟩
      exact (if_pos rfl).mpr rfl
    | false =>
      refine ⟨_, exec_of_check_none hf ha (by rw [hs, h0, frameCheck_not_strict (Nat.zero_le _)]), ?_⟩
      exact (if_neg Bool.false_ne_true).mpr (checkedRest_STATUS_of_len_zero h0)

/-- Settles O52: what a FRAME past its checks does with a bad word, and what a DATA_RANGE says of the command. -/
theorem badPayloadWordRaisesDataRange : Obligations.BadPayloadWordRaisesDataRange := by
  constructor
  · intro s len j hlen hwords hrate hj hbad
    obtain rfl : len = s.len := hlen
    have ha : s.avail (3 + s.len) = true := (s.avail_iff _).mpr (by omega)
    have hb := (State.any_payloadBad_iff ha).mpr ⟨j, hj, hbad⟩
    have checks : ∀ f, s.len ≤ u32Max - (descOf f).tail → frameCheck Config.strictConfig f s.rate s.len = none :=
      fun f hl => frameCheck_none.mpr ⟨fun hs => ⟨State.rate_ne_zero_iff.mpr (hrate hs), by omega⟩, hl⟩
    exact ⟨fun hl => exec_of_bad_payload rfl rfl ha (checks .pcm8 hl) hb,
      fun hl => exec_of_bad_payload rfl rfl ha (checks .alaw8 hl) hb⟩
  · intro s t i len hlen hexec herr hne
    obtain rfl : len = s.len := hlen
    rw [exec_eq, Host.Outcome.next.injEq] at hexec
    subst hexec
    obtain ⟨f, hf, hp, hc, ha, hb⟩ :=
      ruleOf_raises_dataRange ((State.finish_err_eq_code_iff (c := .dataRange) hne).mp herr)
    obtain ⟨hstrict, hl⟩ := frameCheck_none.mp hc
    refine ⟨?_, ?_, fun hs => ?_, (State.any_payloadBad_iff ha).mp hb⟩
    · rcases carriesPayload_format hf hp with ⟨rfl, rfl⟩ | ⟨rfl, rfl⟩
      · exact .inl ⟨rfl, hl⟩
      · exact .inr ⟨rfl, hl⟩
    · have := (s.avail_iff _).mp ha
      omega
    · obtain ⟨hr, h0⟩ := hstrict hs
      exact ⟨State.rate_ne_zero_iff.mp hr, h0⟩

end Sys2Proof.Machine
end

section
/-! SUPPORT. The command words by their fields, and a command's words read back (spec/30_encoding.md R66, R69, R77). The
obligations on decoding, on the encoding of commands and on the assembler's lines (R79) are assembled from them. -/

namespace Sys2Proof

-- The command words -----------------------------------------------------------------------------------------------

/-- An IMM16 that must be 0 makes its command where it is 0 (R68). -/
theorem decodeZeroImm_eq_command {i j : Instr} {imm : BitVec 16} (h : decodeZeroImm i imm = .command j) :
    j = i ∧ imm = 0 := by
  unfold decodeZeroImm at h
  split_ifs at h with h0
  exact ⟨(DecodeResult.command.inj h).symm, h0⟩

/-- An IMM16 that names a format makes the command of that format (R68). -/
theorem decodeFormatImm_eq_command {pcm8 alaw8 j : Instr} {imm : BitVec 16}
    (h : decodeFormatImm pcm8 alaw8 imm = .command j) : (j = pcm8 ∧ imm = 1) ∨ (j = alaw8 ∧ imm = 6) := by
  unfold decodeFormatImm at h
  split_ifs at h with h1 h6
  · exact .inl ⟨(DecodeResult.command.inj h).symm, h1⟩
  · exact .inr ⟨(DecodeResult.command.inj h).symm, h6⟩

/-- A word that decodes to a command has the three fields of its command word (R67, R77). -/
theorem fields_of_decode_command {w : Word} {i : Instr} (h : decode w = .command i) :
    opField w = opField (commandWord i) ∧ rsvField w = rsvField (commandWord i) ∧
      imm16Field w = imm16Field (commandWord i) := by
  unfold decode at h
  split_ifs at h with known rsv enc encv framea hdr
  · obtain ⟨rfl, imm⟩ := decodeZeroImm_eq_command h
    exact ⟨enc, not_not.mp rsv, imm⟩
  · obtain ⟨rfl, imm⟩ := decodeZeroImm_eq_command h
    exact ⟨encv, not_not.mp rsv, imm⟩
  · obtain ⟨rfl, imm⟩ := decodeZeroImm_eq_command h
    exact ⟨framea, not_not.mp rsv, imm⟩
  · obtain ⟨rfl, imm⟩ | ⟨rfl, imm⟩ := decodeFormatImm_eq_command h
    · exact ⟨hdr, not_not.mp rsv, imm⟩
    · exact ⟨hdr, not_not.mp rsv, imm⟩
  · have frame : opField w = 0x11 := by
      simp only [opcodes, List.mem_cons, List.not_mem_nil, or_false] at known
      tauto
    obtain ⟨rfl, imm⟩ | ⟨rfl, imm⟩ := decodeFormatImm_eq_command h
    · exact ⟨frame, not_not.mp rsv, imm⟩
    · exact ⟨frame, not_not.mp rsv, imm⟩

/-- A command is decoded from its command word alone (R67). -/
theorem decode_eq_command_iff {w : Word} {i : Instr} : decode w = .command i ↔ w = commandWord i :=
  ⟨fun h => (word_eq_iff_fields w (commandWord i)).mpr (fields_of_decode_command h), fun h => h ▸ decode_commandWord i⟩

/-- Settles O11: one equivalence for each row of the opcode map. -/
theorem sevenCommandWordsDecode : Obligations.SevenCommandWordsDecode := fun _ =>
  ⟨decode_eq_command_iff, decode_eq_command_iff, decode_eq_command_iff, decode_eq_command_iff, decode_eq_command_iff,
    decode_eq_command_iff, decode_eq_command_iff⟩

/-- Settles O12: four rows of the opcode map, a reserved field that is not 0, and a format that is none. -/
theorem writtenOutWordsDecode : Obligations.WrittenOutWordsDecode :=
  ⟨decode_commandWord .enc, decode_commandWord .hdrAlaw8, decode_commandWord .framePcm8, decode_commandWord .framea,
    (Machine.decode_eq_illegalCommand_iff _).mpr (.inr (.inl (by decide))),
    (Machine.decode_eq_badFormat_iff _).mpr ⟨.inl (by decide), by decide, by decide, by decide⟩⟩

-- A command's words read back -------------------------------------------------------------------------------------

/-- The argument words of a well-formed command, whatever follows them, read back (R69, R70). -/
theorem decodeArgs_args {c : Command} (hc : c.wf = true) (rest : List Word) :
    decodeArgs c.instr (c.args ++ rest) = .complete c rest := by
  cases c with
  | enc x | hdrPcm8 r l | hdrAlaw8 r l => rfl
  | encv xs | framePcm8 r xs | frameAlaw8 r xs | framea r xs =>
    exact takeItems_append ((countFits_iff xs).mp hc) _ rest

/-- A command word leaves the reading to its arguments (R76). -/
theorem decodeCommand_cons {w : Word} {i : Instr} (h : decode w = .command i) (args : List Word) :
    decodeCommand (w :: args) = decodeArgs i args := by
  simp [decodeCommand, h]

/-- The encoding of a well-formed command, whatever follows it, reads back (R69, R76). -/
theorem decodeCommand_encode {c : Command} (hc : c.wf = true) (rest : List Word) :
    decodeCommand (encode c ++ rest) = .complete c rest :=
  (decodeCommand_cons (decode_commandWord c.instr) (c.args ++ rest)).trans (decodeArgs_args hc rest)

/-- Settles O13: the command word decodes to its row, and the argument words read back by the row's form. -/
theorem encodedCommandsReadBack : Obligations.EncodedCommandsReadBack := fun _ rest hc => decodeCommand_encode hc rest

-- A stream that reads as a command --------------------------------------------------------------------------------

/-- Counted items that are read are those of the count word, and they fit it (R69, R70). -/
theorem takeItems_complete {n : Word} {mk : List Word → Command} {ws rest : List Word} {c : Command}
    (h : takeItems n.toNat mk ws = .complete c rest) :
    ∃ xs, c = mk xs ∧ countFits xs = true ∧ n = countWord xs ∧ ws = xs ++ rest := by
  unfold takeItems at h
  split_ifs at h with hn
  obtain ⟨rfl, rfl⟩ := CommandParse.complete.inj h
  have len : (ws.take n.toNat).length = n.toNat := List.length_take_of_le hn
  refine ⟨ws.take n.toNat, rfl, ?_, ?_, (List.take_append_drop _ ws).symm⟩
  · rw [countFits_iff, len]
    exact n.isLt
  · rw [countWord, len, BitVec.ofNat_toNat, BitVec.setWidth_eq]

/-- Argument words that are read are those of a well-formed command of that row, and what follows them (R69). -/
theorem decodeArgs_complete {i : Instr} {ws rest : List Word} {c : Command} (h : decodeArgs i ws = .complete c rest) :
    c.instr = i ∧ c.wf = true ∧ ws = c.args ++ rest := by
  unfold decodeArgs at h
  split at h
  case h_1 | h_3 | h_4 =>
    obtain ⟨rfl, rfl⟩ := CommandParse.complete.inj h
    exact ⟨rfl, rfl, rfl⟩
  case h_2 | h_5 | h_6 | h_7 =>
    obtain ⟨xs, rfl, fits, rfl, rfl⟩ := takeItems_complete h
    exact ⟨rfl, fits, rfl⟩
  case h_8 => cases h

/-- Settles O14: the first word is the command word of its row, and the words read after it are the command's arguments. -/
theorem commandsReadAreEncodings : Obligations.CommandsReadAreEncodings := by
  intro ws c rest h
  cases ws with
  | nil => cases h
  | cons w args =>
    cases hd : decode w with
    | error e => simp [decodeCommand, hd] at h
    | command i =>
      rw [decodeCommand_cons hd] at h
      obtain ⟨rfl, wf, rfl⟩ := decodeArgs_complete h
      exact ⟨wf, by rw [decode_eq_command_iff.mp hd]; rfl⟩

end Sys2Proof

namespace Sys2Proof.Machine

-- The assembler's lines -------------------------------------------------------------------------------------------

/-- A sample operand in range is the value of its word (R71, R79). -/
theorem toInt_wordOf {v : Int} (h : sampleInRange v = true) : (wordOf v).toInt = v := by
  have bounds : -2 ^ 31 ≤ v ∧ v ≤ 2 ^ 31 - 1 := by simpa [sampleInRange] using h
  rw [wordOf, BitVec.toInt_ofInt, Int.bmod_eq_of_le] <;> omega

theorem toNat_wordOf_of_bounds {v : Int} (h0 : 0 ≤ v) (h : v ≤ 0xFFFFFFFF) : ((wordOf v).toNat : Int) = v := by
  rw [wordOf, BitVec.toNat_ofInt]
  omega

/-- A rate or length operand in range is the value of its word (R70, R79). -/
theorem toNat_wordOf {v : Int} (h : u32InRange v = true) : ((wordOf v).toNat : Int) = v := by
  obtain ⟨h0, hv⟩ : 0 ≤ v ∧ v ≤ 0xFFFFFFFF := by simpa [u32InRange] using h
  exact toNat_wordOf_of_bounds h0 hv

/-- A payload byte operand in range is the value of its word (R72, R79). -/
theorem toNat_wordOf_of_byte {v : Int} (h : byteInRange v = true) : ((wordOf v).toNat : Int) = v := by
  obtain ⟨h0, hv⟩ : 0 ≤ v ∧ v ≤ 255 := by simpa [byteInRange] using h
  exact toNat_wordOf_of_bounds h0 (by omega)

/-- The count that the assembler writes is the count word of the listed items (R79). -/
theorem wordOf_length (vs : List Int) : wordOf vs.length = countWord (vs.map wordOf) := by
  rw [wordOf, countWord, List.length_map, BitVec.ofInt_natCast]

/-- Items in range fit the count word, and each is read back from its word (R70, R79). -/
theorem items_of_itemsInRange {ok : Int → Bool} {value : Word → Int} {vs : List Int}
    (read : ∀ v, ok v = true → value (wordOf v) = v) (h : itemsInRange ok vs = true) :
    countFits (vs.map wordOf) = true ∧ (vs.map wordOf).map value = vs := by
  obtain ⟨hall, hlen⟩ : (∀ v ∈ vs, ok v = true) ∧ vs.length < 2 ^ 32 := by simpa [itemsInRange] using h
  refine ⟨by rwa [countFits_iff, List.length_map], ?_⟩
  rw [List.map_map]
  exact (List.map_congr_left fun v hv => read v (hall v hv)).trans (List.map_id vs)

/-- The command that a line writes (R79); `.word` writes none (R80). -/
def SourceLine.command : SourceLine → Option Command
  | .enc s => some (.enc (wordOf s))
  | .encv ss => some (.encv (ss.map wordOf))
  | .hdrPcm8 r l => some (.hdrPcm8 (wordOf r) (wordOf l))
  | .hdrAlaw8 r l => some (.hdrAlaw8 (wordOf r) (wordOf l))
  | .framePcm8 r bs => some (.framePcm8 (wordOf r) (bs.map wordOf))
  | .frameAlaw8 r bs => some (.frameAlaw8 (wordOf r) (bs.map wordOf))
  | .framea r ss => some (.framea (wordOf r) (ss.map wordOf))
  | .word _ => none

/-- The words of a line are the encoding of its command (R79). -/
theorem SourceLine.words_eq_encode {l : SourceLine} {c : Command} (h : l.command = some c) : l.words = encode c := by
  cases l with
  | enc | hdrPcm8 | hdrAlaw8 =>
    cases h
    rfl
  | encv vs | framePcm8 _ vs | frameAlaw8 _ vs | framea _ vs =>
    cases h
    rw [SourceLine.words, wordOf_length]
    rfl
  | word => cases h

/-- The words of a line that writes a well-formed command encode it and read back as it, with what is known of it (R79). -/
theorem SourceLine.command_read_back {l : SourceLine} {c : Command} {P : Command → Prop} (h : l.command = some c)
    (wf : c.wf = true) (operands : P c) (rest : List Word) :
    ∃ c, c.wf = true ∧ l.words = encode c ∧ decodeCommand (l.words ++ rest) = .complete c rest ∧ P c := by
  have words := SourceLine.words_eq_encode h
  exact ⟨c, wf, words, by rw [words, decodeCommand_encode wf], operands⟩

/-- Settles O15: an accepted line writes one command, whose operand words have the values of the accepted operands. -/
theorem assembledLinesAreCommands : Obligations.AssembledLinesAreCommands := by
  intro l ws rest h hword
  obtain ⟨accepted, rfl⟩ : l.accepted = true ∧ l.words = ws := by simpa [assembleLine] using h
  cases l with
  | enc s => exact SourceLine.command_read_back rfl rfl ⟨_, rfl, toInt_wordOf accepted⟩ rest
  | encv ss =>
    obtain ⟨fits, values⟩ := items_of_itemsInRange (fun _ => toInt_wordOf) accepted
    exact SourceLine.command_read_back rfl (by exact fits) ⟨_, rfl, values⟩ rest
  | hdrPcm8 r n | hdrAlaw8 r n =>
    obtain ⟨hr, hn⟩ := Bool.and_eq_true_iff.mp accepted
    exact SourceLine.command_read_back rfl rfl ⟨_, _, rfl, toNat_wordOf hr, toNat_wordOf hn⟩ rest
  | framePcm8 r bs | frameAlaw8 r bs =>
    obtain ⟨hr, hbs⟩ := Bool.and_eq_true_iff.mp accepted
    obtain ⟨fits, values⟩ := items_of_itemsInRange (value := fun y => (y.toNat : Int)) (fun _ => toNat_wordOf_of_byte) hbs
    exact SourceLine.command_read_back rfl (by exact fits) ⟨_, _, rfl, toNat_wordOf hr, values⟩ rest
  | framea r ss =>
    obtain ⟨hr, hss⟩ := Bool.and_eq_true_iff.mp accepted
    obtain ⟨fits, values⟩ := items_of_itemsInRange (fun _ => toInt_wordOf) hss
    exact SourceLine.command_read_back rfl (by exact fits) ⟨_, _, rfl, toNat_wordOf hr, values⟩ rest
  | word v => exact absurd rfl (hword v)

end Sys2Proof.Machine
end

section
/-! SUPPORT. What one step and any run keep (spec/10_state.md R25 to R28, 60_exceptions.md R200, R209): an ending takes words
from the stream and adds bytes to OUT, and only a raise touches STATUS. The obligations on the invariant, on ERR, on the
streams and on the frame of the commands are assembled from them. -/

namespace Sys2Proof.Machine

-- The effect of an ending -----------------------------------------------------------------------------------------

/-- The bytes that an ending emits: those of a completion (R200, R209). -/
def Ending.bytes : Ending → List Byte
  | .completes bs _ => bs
  | .raises _ => []
  | .holds => []

/-- The words that an ending consumes: those of a completion (R200, R209). -/
def Ending.words : Ending → Nat
  | .completes _ n => n
  | .raises _ => 0
  | .holds => 0

theorem State.finish_ip (s : State) (e : Ending) : (s.finish e).ip = s.ip + e.words := by cases e <;> rfl

theorem State.finish_OUT (s : State) (e : Ending) : (s.finish e).OUT = s.OUT ++ e.bytes := by
  cases e with
  | completes bs n => rfl
  | raises c => exact (List.append_nil s.OUT).symm
  | holds => exact (List.append_nil s.OUT).symm

theorem State.finish_pending (s : State) (e : Ending) : (s.finish e).pending = s.pending.drop e.words := by
  rw [State.pending, State.finish_IN, State.finish_ip, State.pending, List.drop_drop]

/-- An ending that changes STATUS is a raise (R209). -/
theorem State.raises_of_finish_STATUS_ne {s : State} {e : Ending} (h : (s.finish e).STATUS ≠ s.STATUS) :
    ∃ c, e = .raises c := by
  by_contra hc
  exact h (State.finish_STATUS_of_not_raises (not_exists.mp hc))

theorem State.enabled_eq_false_iff (s : State) : s.enabled = false ↔ s.ending = .holds := by simp [State.enabled]

theorem State.enabled_iff (s : State) : s.enabled = true ↔ s.ending ≠ .holds := by simp [State.enabled]

/-- The next state of a step is the one that its ending gives (R200). -/
theorem eq_finish_of_step {s t : State} (h : step s = .next t) : t = s.finish s.ending :=
  (Host.Outcome.next.inj ((step_eq s).symm.trans h)).symm

-- One step --------------------------------------------------------------------------------------------------------

/-- Settles O21: the three endings of a step, one for each clause. -/
theorem stepHoldsRaisesOrCompletes : Obligations.StepHoldsRaisesOrCompletes := by
  intro s t h
  rw [eq_finish_of_step h]
  cases he : s.ending with
  | completes bs n =>
    obtain ⟨h0, ha, -, i, hd, rfl⟩ := State.ending_completes he
    exact .inr (.inr ⟨h0, i, bs, hd, ha, rfl⟩)
  | raises e => exact .inr (.inl ⟨State.ending_raises he, e, rfl⟩)
  | holds => exact .inl rfl

/-- A completion moves ip and a raise moves ERR, so only a hold leaves the state as it is (R200). -/
theorem State.finish_ending_eq_self_iff (s : State) : s.finish s.ending = s ↔ s.ending = .holds := by
  cases he : s.ending with
  | completes bs n =>
    obtain ⟨-, -, h2, -⟩ := State.ending_completes he
    refine iff_of_false (fun h => ?_) nofun
    have hip : s.ip + n = s.ip := congrArg State.ip h
    omega
  | raises e =>
    refine iff_of_false (fun h => e.code_range.1 ?_) nofun
    rw [← s.raiseError_err e, ← State.finish_raises, h, State.ending_raises he]
  | holds => exact iff_of_true rfl rfl

/-- Settles O20: only a hold leaves the state as it is, and a block that has no step is one whose ending holds. -/
theorem stateStaysExactlyWhereThereIsNoStep : Obligations.StateStaysExactlyWhereThereIsNoStep := by
  intro s
  rw [step_eq, Host.Outcome.next.injEq, State.finish_ending_eq_self_iff, State.enabled_eq_false_iff]

/-- A recorded code leaves the bits [31:4] of STATUS zero (R28). -/
theorem high_bits_of_code : ∀ v : BitVec 4, (v.setWidth 32 : Word).extractLsb' 4 28 = 0 := by decide

/-- Settles O8: only a raise changes ERR; it finds ERR 0, writes one of the six codes, and halts the block. -/
theorem errorCodeIsWrittenOnce : Obligations.ErrorCodeIsWrittenOnce := by
  intro s t h hne
  rw [eq_finish_of_step h] at hne ⊢
  obtain ⟨e, he⟩ := State.raises_of_finish_STATUS_ne fun hs => hne (congrArg (BitVec.extractLsb' 0 4) hs)
  obtain ⟨hpos, hle⟩ := e.code_range
  rw [he, State.finish_raises, State.raiseError_err]
  have halted : (s.raiseError e).err ≠ 0 := by rwa [State.raiseError_err]
  exact ⟨State.ending_raises he, Nat.pos_of_ne_zero fun h0 => hpos (BitVec.eq_of_toNat_eq h0), hle, high_bits_of_code e.code,
    State.not_enabled_of_ending_holds (State.ending_halted halted)⟩

/-- Settles O22: an ending keeps IN, extends OUT and advances ip; where it raises, it consumes and emits nothing. -/
theorem commandsChangeNothingElse : Obligations.CommandsChangeNothingElse := by
  intro i s
  refine ⟨_, exec_eq i s, State.finish_IN .., fun j hj => ?_, ?_, fun hi => ?_, fun hne => ?_⟩
  · rw [State.finish_OUT, List.getElem?_append_left hj]
  · rw [State.finish_ip]
    exact Nat.le_add_right ..
  · have noFormat : formatOf i = none := by rcases hi with rfl | rfl <;> rfl
    exact State.finish_STATUS_of_not_raises (ruleOf_not_raises_of_formatOf_none noFormat)
  · obtain ⟨c, hc⟩ := State.raises_of_finish_STATUS_ne hne
    rw [hc]
    exact ⟨rfl, rfl⟩

-- The invariant ---------------------------------------------------------------------------------------------------

theorem State.inv_iff (s : State) : s.Inv ↔ s.STATUS.toNat ≤ 6 ∧ s.ip ≤ s.IN.length := by
  simp [State.Inv, State.statusLegal, State.ipInStream]

/-- A raised code is a legal STATUS (R28, R202). -/
theorem State.raiseError_STATUS_le (s : State) (e : ErrCode) : (s.raiseError e).STATUS.toNat ≤ 6 := by
  rw [State.raiseError_STATUS, BitVec.toNat_setWidth]
  exact (Nat.mod_le _ _).trans e.code_range.2

/-- A completing command finds its words in IN, and a raise writes a legal code: the end of the step keeps the invariant. -/
theorem State.Inv.blockStep {s : State} (h : s.Inv) : s.blockStep.Inv := by
  rw [State.blockStep_eq]
  rw [State.inv_iff] at *
  obtain ⟨status, ip⟩ := h
  cases he : s.ending with
  | completes bs n =>
    obtain ⟨-, ha, -⟩ := State.ending_completes he
    exact ⟨status, (s.avail_iff n).mp ha⟩
  | raises e => exact ⟨s.raiseError_STATUS_le e, ip⟩
  | holds => exact ⟨status, ip⟩

theorem State.blockStep_of_step {s t : State} (h : step s = .next t) : s.blockStep = t := by
  rw [State.blockStep, h]

/-- Settles O6: the next state is the one after a block step. -/
theorem everyStepKeepsTheStateInvariant : Obligations.EveryStepKeepsTheStateInvariant := by
  intro s t hinv h
  rw [← State.blockStep_of_step h]
  exact hinv.blockStep

theorem State.reset_inv : State.reset.Inv := (State.inv_iff _).mpr ⟨Nat.zero_le _, Nat.zero_le _⟩

/-- Settles O5: STATUS and ip are 0 at reset. -/
theorem resetMeetsTheStateInvariant : Obligations.ResetMeetsTheStateInvariant := State.reset_inv

/-- The host can lengthen IN, and it can reset; nothing else it does changes the state (R248). -/
theorem State.Inv.hostAct {s : State} (h : s.Inv) (a : HostAction) : (s.hostAct a).Inv := by
  cases a with
  | append w =>
    obtain ⟨status, ip⟩ := (State.inv_iff s).mp h
    refine (State.inv_iff _).mpr ⟨status, ?_⟩
    simp only [State.hostAct, State.hostAppend_ip, State.hostAppend_IN, List.length_append]
    omega
  | reset => exact State.reset_inv
  | readOut i | readStatus | readIp | writeStatus v | writeIp n => exact h

theorem State.Inv.event {s : State} (h : s.Inv) (e : Event) : (s.event e).Inv := by
  cases e with
  | block => exact h.blockStep
  | host a => exact h.hostAct a

/-- What every event keeps, every sequence of events keeps (R48). -/
theorem State.events_induction {P : State → Prop} (keeps : ∀ s e, P s → P (s.event e)) {s : State} (h : P s)
    (es : List Event) : P (s.events es) := by
  induction es generalizing s with
  | nil => exact h
  | cons e es ih => exact ih (keeps s e h)

/-- Settles O7: the invariant holds at reset and every event keeps it. -/
theorem everyReachableStateMeetsTheStateInvariant : Obligations.EveryReachableStateMeetsTheStateInvariant := by
  rintro _ ⟨es, rfl⟩
  exact State.events_induction (fun _ e h => h.event e) State.reset_inv es

-- The streams -----------------------------------------------------------------------------------------------------

/-- An event other than reset adds its appended word to IN, and takes nothing back from ip and OUT (R25 to R27). -/
theorem State.event_grows (s : State) {e : Event} (he : e ≠ .host .reset) :
    (s.event e).IN = s.IN ++ appendedWords [e] ∧ s.ip ≤ (s.event e).ip ∧ s.OUT <+: (s.event e).OUT := by
  cases e with
  | block =>
    rw [State.event, State.blockStep_eq, State.finish_IN, State.finish_ip, State.finish_OUT]
    exact ⟨(List.append_nil s.IN).symm, Nat.le_add_right .., List.prefix_append ..⟩
  | host a =>
    cases a with
    | reset => exact absurd rfl he
    | append w => exact ⟨rfl, le_rfl, List.prefix_rfl⟩
    | readOut i | readStatus | readIp | writeStatus v | writeIp n =>
      exact ⟨(List.append_nil s.IN).symm, le_rfl, List.prefix_rfl⟩

/-- Over any events without a reset IN grows by their words, and ip and OUT only grow (R25 to R27). -/
theorem State.events_grow {es : List Event} (s : State) (hes : noReset es = true) :
    (s.events es).IN = s.IN ++ appendedWords es ∧ s.ip ≤ (s.events es).ip ∧ s.OUT <+: (s.events es).OUT := by
  induction es generalizing s with
  | nil => exact ⟨(List.append_nil s.IN).symm, le_rfl, List.prefix_rfl⟩
  | cons e es ih =>
    obtain ⟨he, hes⟩ := noReset_cons.mp hes
    obtain ⟨hin, hip, hout⟩ := s.event_grows he
    obtain ⟨hin', hip', hout'⟩ := ih (s.event e) hes
    refine ⟨?_, hip.trans hip', hout.trans hout'⟩
    rw [State.events, hin', hin, appendedWords_cons e es, List.append_assoc]

/-- Settles O9: the growth over the events, with the bytes that OUT gained named. -/
theorem streamsOnlyGrowBetweenResets : Obligations.StreamsOnlyGrowBetweenResets := by
  intro s es hes
  obtain ⟨hin, hip, bs, hout⟩ := s.events_grow hes
  exact ⟨hin, hip, bs, hout.symm⟩

-- The host's reads ------------------------------------------------------------------------------------------------

/-- A read of STATUS shows ERR and zero above it (R28). -/
theorem State.readStatus_fields (s : State) :
    s.readStatus.extractLsb' 4 28 = 0 ∧ s.readStatus.extractLsb' 0 4 = s.err :=
  ⟨high_bits_of_code s.err, err_of_code s.err⟩

/-- A read of OUT within its length gives that byte (R248). -/
theorem State.hostReply_readOut (s : State) {i : Nat} (h : i < s.OUT.length) :
    s.hostReply (.readOut i) = .byte s.OUT[i] := by
  simp [State.hostReply, h]

/-- Settles O4: reads and ignored writes leave the state, and the replies are the fields of STATUS, ip and a byte of OUT. -/
theorem hostReadsAndWritesChangeNothing : Obligations.HostReadsAndWritesChangeNothing := fun s _ _ _ =>
  ⟨rfl, rfl, rfl, rfl, rfl, rfl, ⟨s.readStatus, rfl, s.readStatus_fields⟩, s.hostReply_readOut⟩

end Sys2Proof.Machine
end

section
/-! SUPPORT. Block steps and appends in any order (spec/20_memory.md R48, 60_exceptions.md R200, 70_reset_and_hazards.md R243,
R247): a step sees the pending words alone, an append commutes with a step the block has, so every run is a number of block
steps after all its appends. The obligations on determinism, on settling and on the end of a run are assembled from them. -/

namespace Sys2Proof.Machine

-- The step and the pending words ----------------------------------------------------------------------------------

/-- Settles O16: a running block's step is the rule of its command, and so is exec. -/
theorem stepRunsTheDecodedCommand : Obligations.StepRunsTheDecodedCommand := by
  intro s i h0 ha hd
  rw [step_eq, exec_eq, State.ending_of_decode h0 ha hd]

/-- Settles O28: the step of a block whose pending words begin with a whole command. -/
theorem stepDoesWhatTheCommandSays : Obligations.StepDoesWhatTheCommandSays := fun _ _ _ => step_of_pending_encode

/-- An ending leaves equal STATUS equal (R209). -/
theorem State.finish_STATUS_congr {s u : State} (h : s.STATUS = u.STATUS) (e : Ending) :
    (s.finish e).STATUS = (u.finish e).STATUS := by
  cases e with
  | completes bs n => exact h
  | raises c => rfl
  | holds => exact h

/-- Settles O23: the ending is decided by ERR and the pending words, and it says what is consumed, emitted and recorded. -/
theorem stepSeesOnlyThePendingWords : Obligations.StepSeesOnlyThePendingWords := by
  intro s u s' u' hstatus hpending hs hu
  have herr : s.err = u.err := congrArg (BitVec.extractLsb' 0 4) hstatus
  rw [eq_finish_of_step hs, eq_finish_of_step hu, State.ending_congr herr hpending]
  exact ⟨State.finish_STATUS_congr hstatus _, by rw [State.finish_pending, State.finish_pending, hpending],
    ⟨_, s.finish_ip _, u.finish_ip _⟩, _, s.finish_OUT _, u.finish_OUT _⟩

-- Appends and an enabled step -------------------------------------------------------------------------------------

/-- An enabled block ends its step the same way after an append (R211, R243). -/
theorem State.ending_hostAppend {s : State} (w : Word) (h : s.ending ≠ .holds) : (s.hostAppend w).ending = s.ending := by
  have word (ha : s.avail 1 = true) : (s.hostAppend w).inWord 0 = s.inWord 0 := s.hostAppend_inWord w ha
  rcases s.ending_cases with ⟨he, -⟩ | ⟨h0, ha, e, hd, he⟩ | ⟨h0, ha, i, hd, he⟩
  · exact absurd he h
  · rw [he, State.ending, State.fetch]
    simp [h0, s.hostAppend_avail w ha, word ha, hd]
  · rw [he] at h ⊢
    have hd' : decode ((s.hostAppend w).inWord 0) = .command i := by rw [word ha, hd]
    rw [State.ending_of_decode (s := s.hostAppend w) h0 (s.hostAppend_avail w ha) hd', ruleOf_hostAppend w h]

theorem State.finish_hostAppend (s : State) (w : Word) (e : Ending) :
    (s.hostAppend w).finish e = (s.finish e).hostAppend w := by cases e <;> rfl

theorem State.enabled_hostAppend {s : State} (w : Word) (h : s.enabled = true) : (s.hostAppend w).enabled = true := by
  rw [State.enabled_iff] at *
  rwa [State.ending_hostAppend w h]

theorem State.blockStep_hostAppend {s : State} (w : Word) (h : s.enabled = true) :
    (s.hostAppend w).blockStep = s.blockStep.hostAppend w := by
  rw [State.blockStep_eq, State.blockStep_eq, State.ending_hostAppend w (s.enabled_iff.mp h), State.finish_hostAppend]

/-- Settles O24: the append keeps the ending, and takes effect beside it. -/
theorem appendCommutesWithAnEnabledStep : Obligations.AppendCommutesWithAnEnabledStep := fun _ w h =>
  ⟨State.enabled_hostAppend w h, State.blockStep_hostAppend w h⟩

/-- An enabled step commutes with any number of appends (R48). -/
theorem State.blockStep_hostAppends {s : State} (ws : List Word) (h : s.enabled = true) :
    (s.hostAppends ws).blockStep = s.blockStep.hostAppends ws := by
  induction ws generalizing s with
  | nil => rfl
  | cons w ws ih =>
    calc ((s.hostAppend w).hostAppends ws).blockStep
      _ = (s.hostAppend w).blockStep.hostAppends ws := ih (State.enabled_hostAppend w h)
      _ = (s.blockStep.hostAppend w).hostAppends ws := by rw [State.blockStep_hostAppend w h]

-- Settled states --------------------------------------------------------------------------------------------------

theorem State.blockStep_of_not_enabled {s : State} (h : s.enabled = false) : s.blockStep = s := by
  rw [State.blockStep_eq, s.enabled_eq_false_iff.mp h, State.finish_holds]

theorem State.blockSteps_of_not_enabled {s : State} (h : s.enabled = false) (n : Nat) : s.blockSteps n = s := by
  induction n with
  | zero => rfl
  | succ n ih => rw [State.blockSteps, State.blockStep_of_not_enabled h, ih]

theorem State.blockSteps_add (s : State) (m n : Nat) : s.blockSteps (m + n) = (s.blockSteps m).blockSteps n := by
  induction m generalizing s with
  | zero => rw [Nat.zero_add, State.blockSteps]
  | succ m ih => rw [Nat.succ_add, State.blockSteps, ih, State.blockSteps]

/-- From one state, the block settles in one state only, however many steps it takes (R200). -/
theorem State.settled_unique {s : State} {m n : Nat} (hm : (s.blockSteps m).enabled = false)
    (hn : (s.blockSteps n).enabled = false) : s.blockSteps m = s.blockSteps n := by
  wlog h : m ≤ n generalizing m n
  · exact (this hn hm (by omega)).symm
  · obtain ⟨k, rfl⟩ := Nat.exists_eq_add_of_le h
    rw [State.blockSteps_add, State.blockSteps_of_not_enabled hm]

/-- Every run without a reset is a number of block steps after all its appends: a step that the block has moves behind the
later appends, and one that it has not does nothing (R48). -/
theorem State.events_eq_blockSteps_hostAppends {es : List Event} (s : State) (hes : noReset es = true) :
    ∃ n, s.events es = (s.hostAppends (appendedWords es)).blockSteps n := by
  induction es generalizing s with
  | nil => exact ⟨0, rfl⟩
  | cons e es ih =>
    obtain ⟨he, hes⟩ := noReset_cons.mp hes
    obtain ⟨n, hn⟩ := ih (s.event e) hes
    cases e with
    | block =>
      cases h : s.enabled with
      | true => exact ⟨n + 1, by rw [State.events, hn, State.event, ← State.blockStep_hostAppends _ h]; rfl⟩
      | false => exact ⟨n, by rw [State.events, hn, State.event, State.blockStep_of_not_enabled h]; rfl⟩
    | host a =>
      cases a with
      | reset => exact absurd rfl he
      | append w | readOut i | readStatus | readIp | writeStatus v | writeIp k => exact ⟨n, hn⟩

/-- Settles O25: both runs are block steps after the same appends, and there the block settles in one state only. -/
theorem settledStateDependsOnTheWordsAlone : Obligations.SettledStateDependsOnTheWordsAlone := by
  intro es fs hes hfs hwords settledE settledF
  obtain ⟨m, hm⟩ := State.reset.events_eq_blockSteps_hostAppends hes
  obtain ⟨n, hn⟩ := State.reset.events_eq_blockSteps_hostAppends hfs
  rw [← hwords] at hn
  rw [hm] at settledE ⊢
  rw [hn] at settledF ⊢
  exact State.settled_unique settledE settledF

/-- A step that is no hold halts the block or takes pending words away (R209, R76). -/
theorem State.blockStep_settles_or_consumes {s : State} (h : s.enabled = true) :
    s.blockStep.enabled = false ∨ s.blockStep.pending.length < s.pending.length := by
  rw [State.blockStep_eq]
  cases he : s.ending with
  | completes bs n =>
    obtain ⟨-, ha, h2, -⟩ := State.ending_completes he
    have hn : n ≤ s.pending.length := (s.avail_iff_pending (by omega)).mp ha
    right
    rw [State.finish_pending, List.length_drop, Ending.words]
    omega
  | raises e =>
    have halted : (s.raiseError e).err ≠ 0 := by
      rw [State.raiseError_err]
      exact e.code_range.1
    exact .inl (State.not_enabled_of_ending_holds (State.ending_halted halted))
  | holds => exact absurd he (s.enabled_iff.mp h)

/-- A number of steps above that of the pending words settles the block (R246). -/
theorem State.blockSteps_settle {n : Nat} {s : State} (h : s.pending.length < n) : (s.blockSteps n).enabled = false := by
  induction n generalizing s with
  | zero => omega
  | succ n ih =>
    cases hs : s.enabled with
    | false => rwa [State.blockSteps_of_not_enabled hs]
    | true =>
      obtain halted | less := State.blockStep_settles_or_consumes hs
      · rwa [State.blockSteps, State.blockSteps_of_not_enabled halted]
      · exact ih (by omega)

/-- Settles O26: each step that is no hold consumes words, and the last one may record an error. -/
theorem blockSettlesWithoutTheHost : Obligations.BlockSettlesWithoutTheHost := fun _ =>
  State.blockSteps_settle (Nat.lt_succ_self _)

-- The end of a run ------------------------------------------------------------------------------------------------

theorem State.finalFaulted_iff (s : State) : s.finalFaulted = true ↔ s.err ≠ 0 := decide_eq_true_iff

theorem State.waiting_iff (s : State) : s.waiting = true ↔ s.err = 0 ∧ s.ip < s.IN.length ∧ s.enabled = false := by
  simp [State.waiting, and_assoc]

/-- A block that has a step has no error recorded and a word at ip (R200). -/
theorem State.running_of_enabled {s : State} (h : s.enabled = true) : s.err = 0 ∧ s.ip < s.IN.length := by
  rw [State.enabled_iff] at h
  rcases s.ending_cases with ⟨he, -⟩ | ⟨h0, ha, -⟩ | ⟨h0, ha, -⟩
  · exact absurd he h
  · exact ⟨h0, (s.avail_iff 1).mp ha⟩
  · exact ⟨h0, (s.avail_iff 1).mp ha⟩

/-- Settles O27: ERR tells a faulted end, and the words at ip tell a clean end from a wait. -/
theorem endOfRunIsOneOfThree : Obligations.EndOfRunIsOneOfThree := by
  intro s hip
  simp only [← Bool.not_eq_true, State.finalClean_iff, State.finalFaulted_iff, State.waiting_iff]
  constructor
  · intro h
    by_cases h0 : s.err = 0
    · obtain hlt | heq := hip.lt_or_eq
      · exact .inr (.inr ⟨fun ⟨_, heq⟩ => hlt.ne heq, not_not_intro h0, h0, hlt, h⟩)
      · exact .inl ⟨⟨h0, heq⟩, not_not_intro h0, fun ⟨_, hlt, _⟩ => hlt.ne heq⟩
    · exact .inr (.inl ⟨fun ⟨h, _⟩ => h0 h, h0, fun ⟨h, _⟩ => h0 h⟩)
  · intro h
    obtain ⟨h0, hlt⟩ := State.running_of_enabled h
    exact ⟨fun ⟨_, heq⟩ => hlt.ne heq, not_not_intro h0, fun ⟨_, _, hn⟩ => hn h⟩

end Sys2Proof.Machine
end

section
/-! SUPPORT. The frame commands past their checks, and the commands that hold (spec/42_wav_frame.md R155 to R159,
70_reset_and_hazards.md R243): the obligations on what is emitted and on incomplete commands are assembled from them. -/

namespace Sys2Proof.Machine

/-- Settles O45: over any buffer of H bytes the writes give the one concatenation that wav_header is too. -/
theorem headerDoesNotDependOnTheNewBuffer : Obligations.HeaderDoesNotDependOnTheNewBuffer := by
  intro f rate len F h
  exact ⟨(headerWrites_eq f rate len F h).trans (wavHeader_eq f rate len).symm, wavHeader_length f rate len⟩

section Rules
variable {s : State} {i : Instr} {f : Format}

/-- The checks of a frame command, on the words of RATE and LEN (R69, R206 to R208). -/
theorem frameCheck_operands_none (hs : Config.strictConfig = true → s.inWord 1 ≠ 0 ∧ s.len ≠ 0)
    (hl : s.len ≤ u32Max - (descOf f).tail) : frameCheck Config.strictConfig f s.rate s.len = none := by
  refine frameCheck_none.mpr ⟨fun h => ?_, hl⟩
  obtain ⟨rate, len⟩ := hs h
  exact ⟨State.rate_ne_zero_iff.mpr rate, len⟩

/-- A frame command past its checks whose rest completes emits the bytes of its rest (R155 to R159). -/
theorem exec_of_checkedRest_completes {bs : List Byte} {n : Nat} (hf : formatOf i = some f) (ha : s.avail 3 = true)
    (hc : frameCheck Config.strictConfig f s.rate s.len = none) (hr : checkedRest f s i = .completes bs n) :
    exec i s = .next { s with ip := s.ip + n, OUT := s.OUT ++ bs } := by
  rw [exec_of_check_none hf ha hc, hr]
  rfl

/-- A payload word of at most one byte is not bad (R72). -/
theorem payloadBad_of_le {w : Word} (h : w.toNat ≤ 0xFF) : payloadBad w = false := by
  have high : w.extractLsb' 8 24 = 0 := by
    apply BitVec.eq_of_toNat_eq
    rw [BitVec.extractLsb'_toNat, Nat.shiftRight_eq_div_pow, Nat.div_eq_of_lt (by omega)]
    rfl
  simp [payloadBad, high]

/-- FRAME with its payload words there and each of them a byte emits the frame of the bytes in order (R157, R158). -/
theorem exec_frame_of_bytes (hf : formatOf i = some f) (hp : carriesPayload i = true) (ha : s.avail (3 + s.len) = true)
    (hs : Config.strictConfig = true → s.inWord 1 ≠ 0 ∧ s.len ≠ 0) (hl : s.len ≤ u32Max - (descOf f).tail)
    (hb : ∀ j < s.len, (s.inWord (3 + j)).toNat ≤ 0xFF) : exec i s = .next { s with
      ip := s.ip + 3 + s.len
      OUT := s.OUT ++ wavFrame f s.rate ((List.range s.len).map fun j => payloadByte (s.inWord (3 + j))) } := by
  have bytes : ∀ w ∈ s.inWords 3 s.len, payloadBad w = false := by
    rw [s.inWords_eq_map ha]
    simpa using fun j hj => payloadBad_of_le (hb j hj)
  have rest : checkedRest f s i = .completes (wavFrame f s.rate ((s.inWords 3 s.len).map payloadByte)) (3 + s.len) := by
    rw [← payloadEnding_of_bytes bytes]
    rcases of_decide_eq_true hp with rfl | rfl <;> exact if_pos ha
  rw [exec_of_checkedRest_completes hf (s.avail_mono (Nat.le_add_right 3 _) ha) (frameCheck_operands_none hs hl) rest,
    s.inWords_eq_map ha, List.map_map, Nat.add_assoc]
  rfl

/-- FRAMEA with its sample words there emits the frame of their codes in order (R159). -/
theorem exec_framea_of_avail (ha : s.avail (3 + s.len) = true)
    (hs : Config.strictConfig = true → s.inWord 1 ≠ 0 ∧ s.len ≠ 0) (hl : s.len ≤ u32Max - (descOf .alaw8).tail) :
    exec .framea s = .next { s with
      ip := s.ip + 3 + s.len
      OUT := s.OUT ++ wavFrame .alaw8 s.rate ((List.range s.len).map fun j => encodeSample (s.inWord (3 + j))) } := by
  have rest : checkedRest .alaw8 s .framea = _ := if_pos ha
  rw [exec_of_checkedRest_completes rfl (s.avail_mono (Nat.le_add_right 3 _) ha) (frameCheck_operands_none hs hl) rest,
    s.inWords_eq_map ha, List.map_map, Nat.add_assoc]
  rfl

/-- A command that holds answers the same state (R200). -/
theorem exec_of_holds (h : ruleOf s i = .holds) : exec i s = .next s := by
  rw [exec_eq, h, State.finish_holds]

/-- A frame command below Avail(3) changes nothing (R155 to R159, R243). -/
theorem exec_of_not_avail (hf : formatOf i = some f) (ha : s.avail 3 = false) : exec i s = .next s :=
  exec_of_holds ((ruleOf_of_format hf s).trans (checkedRule_of_not_avail _ ha))

theorem State.avail_eq_false_iff (s : State) (n : Nat) : s.avail n = false ↔ s.IN.length < s.ip + n := by
  rw [← Bool.not_eq_true, State.avail_iff, not_le]

end Rules

/-- Settles O48: past the checks the rest of HDR is its header. -/
theorem hdrCommandsEmitTheHeader : Obligations.HdrCommandsEmitTheHeader := by
  intro s h hs
  have ha : s.avail 3 = true := (s.avail_iff 3).mpr h
  have operands (hstrict : Config.strictConfig = true) : s.inWord 1 ≠ 0 ∧ s.len ≠ 0 := by
    obtain ⟨rate, len⟩ := hs hstrict
    exact ⟨rate, fun h0 => len (BitVec.eq_of_toNat_eq h0)⟩
  exact ⟨fun hl => exec_of_checkedRest_completes rfl ha (frameCheck_operands_none operands hl) rfl,
    fun hl => exec_of_checkedRest_completes rfl ha (frameCheck_operands_none operands hl) rfl⟩

/-- Settles O49: both formats by the rule of FRAME. -/
theorem frameCommandsEmitTheFrame : Obligations.FrameCommandsEmitTheFrame := by
  intro s len hlen h hs hb
  obtain rfl : len = s.len := hlen
  have ha : s.avail (3 + s.len) = true := (s.avail_iff _).mpr (by omega)
  exact ⟨fun hl => exec_frame_of_bytes rfl rfl ha hs hl hb, fun hl => exec_frame_of_bytes rfl rfl ha hs hl hb⟩

/-- Settles O50: the rule of FRAMEA, which checks no sample word. -/
theorem frameaEmitsTheEncodedFrame : Obligations.FrameaEmitsTheEncodedFrame := by
  intro s len hlen h hs hl
  obtain rfl : len = s.len := hlen
  exact exec_framea_of_avail ((s.avail_iff _).mpr (by omega)) hs hl

/-- Settles O53: each rule below its Avail holds, and a command that holds answers the same state. -/
theorem incompleteCommandsHold : Obligations.IncompleteCommandsHold := by
  refine ⟨fun s h => ⟨exec_of_holds (encRule_of_not_avail h), exec_of_holds (encvRule_of_not_avail (by omega))⟩,
    fun s h => exec_of_holds (encvRule_of_not_avail h),
    fun s i f hf h => exec_of_not_avail hf ((s.avail_eq_false_iff 3).mpr h), ?_⟩
  intro s i f len hf h1 h2 hlen h hl hs
  obtain rfl : len = s.len := hlen
  have hn : s.avail (3 + s.len) = false := (s.avail_eq_false_iff _).mpr (by omega)
  cases ha : s.avail 3 with
  | false => exact exec_of_not_avail hf ha
  | true =>
    rw [exec_of_check_none hf ha (frameCheck_operands_none hs hl), checkedRest_of_not_avail hf h1 h2 hn,
      State.finish_holds]

end Sys2Proof.Machine
end

section
/-! SUPPORT. The magnitudes of each A-Law code (spec/40_alaw_encoder.md R117, 95_test_vectors.md V2): a code names a segment
and a mantissa, and in a segment from 1 on the mantissa is read from the magnitude over 2^(k+3), which is 15 in the wrap band
and 16 to 31 above it. The obligation on the preimages is assembled from them. -/

namespace Sys2Proof.Machine

section Preimages
variable {m k j : Nat}

/-- A code below 128 names its segment and its mantissa (R60, R109). -/
theorem alawUnsigned_eq_iff (h : m ≤ 32767) (hj : j ≤ 15) :
    alawUnsigned m = 16 * k + j ↔ alawSegment m = k ∧ alawMantissa k m = j := by
  have hlt := alawMantissa_lt m
  rw [alawUnsigned_eq_of_le h]
  constructor
  · intro he
    obtain rfl : alawSegment m = k := by omega
    exact ⟨rfl, by omega⟩
  · rintro ⟨rfl, rfl⟩
    omega

/-- The magnitudes of a segment below the last (R106). -/
theorem alawSegment_eq_iff (hk : k ≤ 6) :
    alawSegment m = k ↔ alawThresholds.getD k 0 ≤ m ∧ m < alawThresholds.getD (k + 1) 0 := by
  have lower := le_alawSegment_iff (m := m) (show k ≤ 7 by omega)
  have upper := le_alawSegment_iff (m := m) (show k + 1 ≤ 7 by omega)
  omega

/-- The magnitudes whose shift by k + 3 bits is q (R107). -/
theorem div_two_pow_eq_iff (m k q : Nat) :
    m / 2 ^ (k + 3) = q ↔ q * 2 ^ (k + 3) ≤ m ∧ m < (q + 1) * 2 ^ (k + 3) := by
  have hpos : 0 < 2 ^ (k + 3) := by positivity
  rw [Nat.div_eq_iff hpos, Nat.succ_mul]
  omega

/-- In a segment from 1 on the shifted magnitude is 15 to 31 (R107, R116). -/
theorem div_two_pow_bounds (h : m ≤ 32767) (hk : 1 ≤ k) (hs : alawSegment m = k) :
    15 ≤ m / 2 ^ (k + 3) ∧ m / 2 ^ (k + 3) ≤ 31 := by
  obtain rfl := hs
  by_cases hb : ∃ j, WrapBand j m
  · obtain ⟨j, hband⟩ := hb
    have hdiv := hband.div_eq
    rw [← hband.segment_eq] at hdiv
    omega
  · have hlo := two_pow_le_of_not_wrapBand hk (not_exists.mp hb)
    obtain ⟨h16, h31, -⟩ := alawUnsigned_of_two_pow_le hk rfl hlo h
    omega

/-- The code of a segment from 1 on by the shifted magnitude: the wrap band gives the top mantissa (R107, R116). -/
theorem alawUnsigned_eq_iff_div (h : m ≤ 32767) (hk : 1 ≤ k) (hj : j ≤ 15) : alawUnsigned m = 16 * k + j ↔
    alawSegment m = k ∧ (m / 2 ^ (k + 3) = 16 + j ∨ (j = 15 ∧ m / 2 ^ (k + 3) = 15)) := by
  rw [alawUnsigned_eq_iff h hj, alawMantissa_eq, if_pos hk]
  refine and_congr_right fun hs => ?_
  have := div_two_pow_bounds h hk hs
  omega

/-- A segment ends above 31 steps of its mantissa (R105). -/
theorem lt_alawThreshold_succ : ∀ k ≤ 6, 31 * 2 ^ (k + 3) < alawThresholds.getD (k + 1) 0 := by decide

/-- A shifted magnitude of 16 to 30 is inside segment k (R105, R106). -/
theorem alawSegment_of_div (h1 : 1 ≤ k) (h7 : k ≤ 7) (h16 : 16 ≤ m / 2 ^ (k + 3)) (h30 : m / 2 ^ (k + 3) ≤ 30) :
    alawSegment m = k := by
  obtain ⟨-, hthr, -⟩ := alawThreshold_bounds k h7 h1
  have hlo : 16 * 2 ^ (k + 3) ≤ m := (Nat.le_div_iff_mul_le (by positivity)).mp h16
  have hhi : m < 31 * 2 ^ (k + 3) := (Nat.div_lt_iff_lt_mul (by positivity)).mp (by omega)
  rw [sixteen_mul_two_pow] at hthr
  have hge : k ≤ alawSegment m := (le_alawSegment_iff h7).mpr (by omega)
  obtain rfl | hk6 : k = 7 ∨ k ≤ 6 := by omega
  · exact le_antisymm (alawSegment_le m) hge
  · exact (alawSegment_eq_iff hk6).mpr ⟨by omega, hhi.trans (lt_alawThreshold_succ k hk6)⟩

/-- Segment 0: the code is the magnitude over 16 (R108, R117). -/
theorem alawUnsigned_eq_low_iff (h : m ≤ 32767) (hj : j ≤ 15) : alawUnsigned m = j ↔ m ≤ 253 ∧ m / 16 = j := by
  have code := alawUnsigned_eq_iff (k := 0) h hj
  rw [Nat.mul_zero, Nat.zero_add, alawMantissa_eq, if_neg (by omega)] at code
  rw [code, (alawSegment_ranges m).1]

/-- A code of a segment from 1 on with MANT below 15 has one range, inside its segment (R117). -/
theorem alawUnsigned_eq_inner_iff (h : m ≤ 32767) (h1 : 1 ≤ k) (h7 : k ≤ 7) (hj : j ≤ 14) : alawUnsigned m = 16 * k + j ↔
    2 ^ (k + 7) + j * 2 ^ (k + 3) ≤ m ∧ m < 2 ^ (k + 7) + (j + 1) * 2 ^ (k + 3) := by
  have range : m / 2 ^ (k + 3) = 16 + j ↔
      2 ^ (k + 7) + j * 2 ^ (k + 3) ≤ m ∧ m < 2 ^ (k + 7) + (j + 1) * 2 ^ (k + 3) := by
    rw [div_two_pow_eq_iff, sixteen_mul_two_pow, ← Nat.add_mul, ← Nat.add_mul, Nat.add_assoc]
  rw [alawUnsigned_eq_iff_div h h1 (by omega), ← range]
  constructor
  · rintro ⟨-, hq | ⟨hj15, -⟩⟩
    · exact hq
    · omega
  · exact fun hq => ⟨alawSegment_of_div h1 h7 (by omega) (by omega), .inl hq⟩

/-- A code of the segments 1 to 6 with MANT 15 has two ranges: the wrap band and the top of the segment (R117). -/
theorem alawUnsigned_eq_top_iff (h : m ≤ 32767) (h1 : 1 ≤ k) (h6 : k ≤ 6) : alawUnsigned m = 16 * k + 15 ↔
    (alawThresholds.getD k 0 ≤ m ∧ m < 2 ^ (k + 7)) ∨
    (2 ^ (k + 7) + 15 * 2 ^ (k + 3) ≤ m ∧ m < alawThresholds.getD (k + 1) 0) := by
  obtain ⟨hlo, hthr, -⟩ := alawThreshold_bounds k (by omega) h1
  have hnext := lt_alawThreshold_succ k h6
  rw [alawUnsigned_eq_iff_div h h1 le_rfl, alawSegment_eq_iff h6]
  have bounds := fun hs => div_two_pow_bounds h h1 ((alawSegment_eq_iff h6).mpr hs)
  have h15 := div_two_pow_eq_iff m k 15
  have h31 : 31 ≤ m / 2 ^ (k + 3) ↔ 31 * 2 ^ (k + 3) ≤ m := Nat.le_div_iff_mul_le (by positivity)
  rw [sixteen_mul_two_pow] at *
  generalize 2 ^ (k + 3) = d at *
  generalize m / d = q at *
  omega

/-- The code 127 has the last wrap band and everything from 31744 on, the cutoff's range with it (R104, R117). -/
theorem alawUnsigned_eq_127_iff (m : Nat) : alawUnsigned m = 127 ↔ (16318 ≤ m ∧ m ≤ 16383) ∨ 31744 ≤ m := by
  by_cases hc : 32635 ≤ m
  · exact iff_of_true (alawUnsigned_of_cutoff hc) (.inr (by omega))
  · obtain ⟨-, -, -, -, -, -, -, h7⟩ := alawSegment_ranges m
    rw [show (127 : Nat) = 16 * 7 + 15 from rfl, alawUnsigned_eq_iff_div (by omega) (by omega) le_rfl, h7]
    omega

/-- The code 0 has the magnitudes below 16 (R118). -/
theorem alawUnsigned_eq_zero_iff (m : Nat) : alawUnsigned m = 0 ↔ m ≤ 15 := by
  by_cases h : m ≤ 32767
  · rw [alawUnsigned_eq_low_iff h (by omega)]
    omega
  · rw [alawUnsigned_of_cutoff (by omega)]
    omega

end Preimages

/-- A magnitude, not 0, that has the code c: one above the least that has it outside the wrap bands. -/
def magnitudeOfCode (c : Nat) : Nat := (if c < 16 then c * 16 else (16 + c % 16) * 2 ^ (c / 16 + 3)) + 1

/-- Every code below 128 is produced (R117). -/
theorem alawUnsigned_magnitudeOfCode : ∀ c ≤ 127, magnitudeOfCode c ≤ 32767 ∧ alawUnsigned (magnitudeOfCode c) = c := by
  decide

/-- Settles O38: the ranges by segment and mantissa, for each sign the code without its sign, and a magnitude for each code. -/
theorem everyCodeHasItsPreimages : Obligations.EveryCodeHasItsPreimages := by
  refine ⟨fun m h => ?_, fun c hc => ?_, fun m h _ => ?_, fun m h _ => ?_, ?_, fun c h80 hff => ?_⟩
  · rw [alawEncode_natCast]
    refine ⟨fun j hj => ?_, ?_, fun k h1 h7 j => alawUnsigned_eq_inner_iff h h1 h7,
      fun k => alawUnsigned_eq_top_iff h, alawUnsigned_eq_127_iff m⟩
    · rw [alawUnsigned_eq_low_iff h (by omega)]
      omega
    · rw [alawUnsigned_eq_low_iff h le_rfl]
      omega
  · obtain ⟨hle, hcode⟩ := alawUnsigned_magnitudeOfCode c hc
    exact ⟨magnitudeOfCode c, hle, by rw [alawEncode_natCast, hcode]⟩
  · rw [alawEncode_neg_natCast h, alawEncode_natCast]
  · rw [alawEncode_neg_natCast h, ← alawUnsigned_eq_zero_iff, ← alawUnsigned_eq_127_iff]
    omega
  · exact alawEncode_of_le_neg_cutoff (by omega)
  · obtain ⟨hle, hcode⟩ := alawUnsigned_magnitudeOfCode (c - 128) (by omega)
    have hpos : 1 ≤ magnitudeOfCode (c - 128) := Nat.le_add_left 1 _
    refine ⟨magnitudeOfCode (c - 128), hpos, by omega, ?_⟩
    rw [alawEncode_neg_natCast hpos, hcode]
    omega

end Sys2Proof.Machine
end
